-- ==== Sys2Proof/Word.lean ====
section
/-! DEFINITION. The bit vectors the spec treats as bits: the encoded word and the packed records of its interfaces. -/

namespace Sys2Proof

/-- An encoded value, rule R32; also the container of a working significand, rule R35 (`SIGW = 32`, rule R10). -/
abbrev Word := BitVec 32

/-- A set of exception flags in the 5-bit layout of rule R43. -/
abbrev FlagSet := BitVec 5

/-- A rounding-mode code as the context holds it, rules R19 and R41; codes 5 and 7 (and 6 without `ROUND_ODD`) are reserved. -/
abbrev RmCode := BitVec 3

/-- The signed exponent as it crosses the port of stage R, 16-bit two's complement, rule R39. -/
abbrev ExpPort := BitVec 16

/-- The request of `Combine` and of `AddMagsF32`: `uiA` in bits 63:32, `uiB` in bits 31:0, rule R37. -/
abbrev CqWord := BitVec 64

/-- The request of `RoundPack`: `sign` in bit 48, `exp` in bits 47:32, `sig` in bits 31:0, rule R39. -/
abbrev RqWord := BitVec 49

/-- The output of `Combine` as bits: `kind` 82:81, `sign` 80, `exp` 79:64, `sig` 63:32, `word` 31:0, rule R38. -/
abbrev CoWord := BitVec 83

/-- The response of `RoundPack` and of `AddMagsF32` as bits: `word` 36:5, `raise` 4:0, rule R40. -/
abbrev RrWord := BitVec 37

/-- The ambient context as one register: `tininess` 8, `rm` 7:5, `flags` 4:0, rule R19. -/
abbrev FctxWord := BitVec 9

end Sys2Proof
end

