-- ==== Sys2Proof/Formats.lean ====
section
/-! DEFINITION. The types of the spec's records and enumerations (30_encoding.md, 10_state.md). The functions over them,
codes and bit positions among them, stand in Machine/Operands.lean and Decode.lean. -/

namespace Sys2Proof

/-- The rounding modes, rules R11 and R41; `rod` (toward-odd) exists only when `ROUND_ODD` holds. -/
inductive RoundingMode
  | rne | rtz | rdn | rup | rmm | rod
  deriving DecidableEq, Repr

/-- The tininess-detection modes, rules R16 and R42. -/
inductive Tininess
  | before | after
  deriving DecidableEq, Repr

/-- A decomposed operand, rule R6: the raw fields of a word, no bias removed and no implicit bit added. -/
structure Fields where
  sign : Bool
  exp : Nat
  frac : Nat
  deriving DecidableEq, Repr

/-- The output of `Combine`, rule R38. The payload of a kind not taken does not exist (U9). -/
inductive CO
  /-- `EARLY`: the final result; stage R is not used and no flag is raised. -/
  | early (word : Word)
  /-- `NAN`: the result is that of `propagateNaN` on the operands. -/
  | nan
  /-- `ROUND`: the triple of rule R36 for stage R. -/
  | round (sign : Bool) (exp : Int) (sig : Word)
  deriving DecidableEq, Repr

/-- The response of `RoundPack` and of `AddMagsF32`, rule R40: the result word and the flags this transaction raises. -/
structure RR where
  word : Word
  raise : FlagSet
  deriving DecidableEq, Repr

/-- The eleven dispatch classes of stage C, rule R45. -/
inductive DispatchClass
  | subsum | nanEq | infEq | eqExact | eqRound | nanFarB | infFarB | nanFarA | infFarA | alignBFar | alignAFar
  deriving DecidableEq, Repr

/-- A request as it arrives: the interface it arrives on fixes the operation asked for and the word's format
(rules R37, R39, R49). The interface of `Combine` alone is log entry 1. -/
inductive Request
  /-- stage C alone, on the `CQ` format -/
  | combine (q : CqWord)
  /-- the whole operation, on the `CQ` format -/
  | addMags (q : CqWord)
  /-- stage R alone, on the `RQ` format -/
  | roundPack (q : RqWord)
  deriving DecidableEq, Repr

/-- An operand of an `ADDMAGS` transcript line, rule R47. -/
inductive Opnd
  | lit (w : Word)
  | var (n : Nat)
  deriving DecidableEq, Repr

/-- The ambient context, rules R14 to R17. `rm` is the raw code, so that a reserved code the caller writes is kept (R20). -/
structure Ctx where
  rm : RmCode
  tininess : Tininess
  flags : FlagSet
  deriving DecidableEq, Repr

/-- One line of a transcript, rule R47; the last three are the caller's acts of rule R20 and a request written as its
bare word, which R47's grammar has no spelling for (log entry 13). -/
inductive Line
  /-- `var := ADDMAGS opnd, opnd` -/
  | addMags (dst : Nat) (a b : Opnd)
  /-- `var := ROUNDPACK bit, int, hex32`, the integer as it crosses the port (R39) -/
  | roundPack (dst : Nat) (sign : Bool) (exp : ExpPort) (sig : Word)
  /-- `SETRM mode` -/
  | setRm (m : RoundingMode)
  /-- `SETTININESS BEFORE` or `SETTININESS AFTER` -/
  | setTininess (t : Tininess)
  /-- `CLRFLAGS` -/
  | clrFlags
  /-- a caller write of the whole context, any bit pattern -/
  | writeCtx (w : FctxWord)
  /-- a caller read of the whole context -/
  | readCtx
  /-- a request presented as its encoded word; the response is bound to no variable -/
  | request (r : Request)
  deriving DecidableEq, Repr

/-- What a run gives out, in order (rule R129): a response record, or the context as the caller read it. -/
inductive Response
  | co (c : CO)
  | rr (r : RR)
  | fctx (w : FctxWord)
  deriving DecidableEq, Repr

end Sys2Proof
end

