-- ==== Sys2Proof/Machine/Operands.lean ====
section
/-! DEFINITION. Operands: the fields of a word (R6, R32), its class (R34), the dispatch classes of a pair (R45), the domain of
stage R (R70), the codes of the ambient fields (R41, R42) and the packed records (R19, R37 to R40). -/

namespace Sys2Proof.Machine

open Sys2Proof

/-! ### The encoded value (rules R6, R32, R34) -/

/-- `decompose`, rule R6: bit 31, bits 30:23 and bits 22:0 of a word. -/
def decompose (w : Word) : Fields :=
  { sign := w.getLsbD 31, exp := (w.extractLsb' 23 8).toNat, frac := (w.extractLsb' 0 23).toNat }

def signOf (w : Word) : Bool := (decompose w).sign
def expOf (w : Word) : Nat := (decompose w).exp
def fracOf (w : Word) : Nat := (decompose w).frac

/-- The class predicates of rule R34. -/
def isZero (w : Word) : Bool := expOf w == 0 && fracOf w == 0
def isSubnormal (w : Word) : Bool := expOf w == 0 && fracOf w != 0
def isNormal (w : Word) : Bool := decide (1 ≤ expOf w) && decide (expOf w ≤ 254)
def isInf (w : Word) : Bool := expOf w == 255 && fracOf w == 0
def isNaN (w : Word) : Bool := expOf w == 255 && fracOf w != 0
def isFinite (w : Word) : Bool := decide (expOf w ≤ 254)

/-! ### The dispatch map (rule R45) -/

/-- The precondition of rule R3 and R46: the two operand words have the same sign bit. -/
def sameSign (a b : Word) : Bool := signOf a == signOf b

/-- The condition column of rule R45's table, row by row. -/
def inClass (c : DispatchClass) (a b : Word) : Bool :=
  match c with
  | .subsum => expOf a == 0 && expOf b == 0
  | .nanEq => expOf a == 255 && expOf b == 255 && (fracOf a != 0 || fracOf b != 0)
  | .infEq => expOf a == 255 && expOf b == 255 && fracOf a == 0 && fracOf b == 0
  | .eqExact => decide (1 ≤ expOf a) && expOf a == expOf b && decide (expOf a ≤ 253) && (fracOf a + fracOf b) % 2 == 0
  | .eqRound => decide (1 ≤ expOf a) && expOf a == expOf b && decide (expOf a ≤ 254) &&
      ((fracOf a + fracOf b) % 2 == 1 || expOf a == 254)
  | .nanFarB => decide (expOf a < expOf b) && expOf b == 255 && fracOf b != 0
  | .infFarB => decide (expOf a < expOf b) && expOf b == 255 && fracOf b == 0
  | .nanFarA => decide (expOf b < expOf a) && expOf a == 255 && fracOf a != 0
  | .infFarA => decide (expOf b < expOf a) && expOf a == 255 && fracOf a == 0
  | .alignBFar => decide (expOf a < expOf b) && decide (expOf b ≤ 254)
  | .alignAFar => decide (expOf b < expOf a) && decide (expOf a ≤ 254)

/-- The class of a pair by the sequential order of tests that rule R52 gives: equal exponents first, then both zero, both
255, the exact shortcut, the rounding fall-through, and then the far operand. -/
def classify (a b : Word) : DispatchClass :=
  if expOf a = expOf b then
    if expOf a = 0 then .subsum
    else if expOf a = 255 then
      if fracOf a = 0 ∧ fracOf b = 0 then .infEq else .nanEq
    else if (fracOf a + fracOf b) % 2 = 0 ∧ expOf a < 0xFE then .eqExact
    else .eqRound
  else if expOf a < expOf b then
    if expOf b = 255 then
      if fracOf b = 0 then .infFarB else .nanFarB
    else .alignBFar
  else
    if expOf a = 255 then
      if fracOf a = 0 then .infFarA else .nanFarA
    else .alignAFar

/-! ### Stage R's domain and the modes (rules R41, R42, R46, R70) -/

/-- The legal working significands of rule R70: the leading bit at bit 30, bit 31 clear. -/
def legalSig (sig : Word) : Bool := decide (2 ^ 30 ≤ sig.toNat) && decide (sig.toNat < 2 ^ 31)

/-- The codes of rule R41. -/
def modeCode : RoundingMode → RmCode
  | .rne => 0
  | .rtz => 1
  | .rdn => 2
  | .rup => 3
  | .rmm => 4
  | .rod => 6

/-- The mode a code selects, `none` for a reserved code (rules R41 and R46). -/
def modeOfCode (roundOdd : Bool) (rm : RmCode) : Option RoundingMode :=
  match rm.toNat with
  | 0 => some .rne
  | 1 => some .rtz
  | 2 => some .rdn
  | 3 => some .rup
  | 4 => some .rmm
  | 6 => if roundOdd then some .rod else none
  | _ => none

/-- The codes of rule R42: 0 is `BEFORE`, 1 is `AFTER`. -/
def tininessBit : Tininess → Bool
  | .before => false
  | .after => true

def tininessOfBit (b : Bool) : Tininess := if b then .after else .before

/-! ### The packed records (rules R19, R37 to R40) -/

/-- `CQ`, rule R37. -/
def cqPack (uiA uiB : Word) : CqWord := uiA ++ uiB
def cqA (q : CqWord) : Word := q.extractLsb' 32 32
def cqB (q : CqWord) : Word := q.extractLsb' 0 32

/-- `RQ`, rule R39. -/
def rqPack (sign : Bool) (exp : ExpPort) (sig : Word) : RqWord := BitVec.ofBool sign ++ exp ++ sig
def rqSign (q : RqWord) : Bool := q.getLsbD 48
def rqExp (q : RqWord) : ExpPort := q.extractLsb' 32 16
def rqSig (q : RqWord) : Word := q.extractLsb' 0 32

/-- `RR`, rule R40. -/
def rrPack (r : RR) : RrWord := r.word ++ r.raise

/-- The `CO` record that 83 bits stand for, rule R38: kind code 0 `EARLY`, 1 `NAN`, 2 `ROUND`, 3 does not occur. The payload
bits of the kinds not taken are not looked at (U9). -/
def coOfBits (w : CoWord) : Option CO :=
  match (w.extractLsb' 81 2).toNat with
  | 0 => some (.early (w.extractLsb' 0 32))
  | 1 => some .nan
  | 2 => some (.round (w.getLsbD 80) (w.extractLsb' 64 16).toInt (w.extractLsb' 32 32))
  | _ => none

/-- `FCTX`, rule R19: the context read as one word, and the context a written word stands for. -/
def fctxOfCtx (c : Ctx) : FctxWord := BitVec.ofBool (tininessBit c.tininess) ++ c.rm ++ c.flags
def ctxOfFctx (w : FctxWord) : Ctx :=
  { rm := w.extractLsb' 5 3, tininess := tininessOfBit (w.getLsbD 8), flags := w.extractLsb' 0 5 }

end Sys2Proof.Machine
end

