-- ==== Sys2Proof/Syntax.lean ====
section
/-! DEFINITION. The instructions: one constructor for each of the eighteen rows of spec/opcode_table.json. -/

namespace Sys2Proof

/-- The operations of the block (rule R45, section 5 of 30_encoding.md). A `cmb…` is stage C on a request of that
dispatch class, an `rpk…` is stage R under the mode it names, which dispatch sampled from `ctx.rm` with the request
(R93, log entry 9), and `addmagsF32` is the whole operation. -/
inductive Instr
  /-- `CMB.SUBSUM`, rule R53 -/
  | cmbSubsum (uiA uiB : Word)
  /-- `CMB.NAN_EQ`, rule R54 -/
  | cmbNanEq (uiA uiB : Word)
  /-- `CMB.INF_EQ`, rule R55 -/
  | cmbInfEq (uiA uiB : Word)
  /-- `CMB.EQ_EXACT`, rule R56 -/
  | cmbEqExact (uiA uiB : Word)
  /-- `CMB.EQ_ROUND`, rule R57 -/
  | cmbEqRound (uiA uiB : Word)
  /-- `CMB.NAN_FAR_B`, rule R58 -/
  | cmbNanFarB (uiA uiB : Word)
  /-- `CMB.INF_FAR_B`, rule R59 -/
  | cmbInfFarB (uiA uiB : Word)
  /-- `CMB.NAN_FAR_A`, rule R60 -/
  | cmbNanFarA (uiA uiB : Word)
  /-- `CMB.INF_FAR_A`, rule R61 -/
  | cmbInfFarA (uiA uiB : Word)
  /-- `CMB.ALIGN_B_FAR`, rule R63 -/
  | cmbAlignBFar (uiA uiB : Word)
  /-- `CMB.ALIGN_A_FAR`, rule R64 -/
  | cmbAlignAFar (uiA uiB : Word)
  /-- `RPK.RNE`, rule R83 -/
  | rpkRne (sign : Bool) (exp : ExpPort) (sig : Word)
  /-- `RPK.RTZ`, rule R85 -/
  | rpkRtz (sign : Bool) (exp : ExpPort) (sig : Word)
  /-- `RPK.RDN`, rule R86 -/
  | rpkRdn (sign : Bool) (exp : ExpPort) (sig : Word)
  /-- `RPK.RUP`, rule R87 -/
  | rpkRup (sign : Bool) (exp : ExpPort) (sig : Word)
  /-- `RPK.RMM`, rule R84 -/
  | rpkRmm (sign : Bool) (exp : ExpPort) (sig : Word)
  /-- `RPK.ROD`, rule R88 -/
  | rpkRod (sign : Bool) (exp : ExpPort) (sig : Word)
  /-- `ADDMAGS.F32`, rule R94 -/
  | addmagsF32 (uiA uiB : Word)
  deriving DecidableEq, Repr

end Sys2Proof
end

