-- ==== Sys2Proof/WellFormed.lean ====
section
/-! DEFINITION. Which instructions are requests the block gives a meaning to: the `cond` and `precondition` columns of
spec/opcode_table.json (rules R3, R45, R46, R70). -/

namespace Sys2Proof

open Sys2Proof.Machine

/-- A `CMB.*` request has operands of one sign that lie in its class (R45); an `RPK.*` request has a legal working significand
(R70); an `ADDMAGS.F32` request has operands of one sign (R3). -/
def Instr.wellFormed : Instr → Bool
  | .cmbSubsum a b => sameSign a b && inClass .subsum a b
  | .cmbNanEq a b => sameSign a b && inClass .nanEq a b
  | .cmbInfEq a b => sameSign a b && inClass .infEq a b
  | .cmbEqExact a b => sameSign a b && inClass .eqExact a b
  | .cmbEqRound a b => sameSign a b && inClass .eqRound a b
  | .cmbNanFarB a b => sameSign a b && inClass .nanFarB a b
  | .cmbInfFarB a b => sameSign a b && inClass .infFarB a b
  | .cmbNanFarA a b => sameSign a b && inClass .nanFarA a b
  | .cmbInfFarA a b => sameSign a b && inClass .infFarA a b
  | .cmbAlignBFar a b => sameSign a b && inClass .alignBFar a b
  | .cmbAlignAFar a b => sameSign a b && inClass .alignAFar a b
  | .rpkRne _ _ sig => legalSig sig
  | .rpkRtz _ _ sig => legalSig sig
  | .rpkRdn _ _ sig => legalSig sig
  | .rpkRup _ _ sig => legalSig sig
  | .rpkRmm _ _ sig => legalSig sig
  | .rpkRod _ _ sig => legalSig sig
  | .addmagsF32 a b => sameSign a b

end Sys2Proof
end

