-- ==== Sys2Proof/Decode.lean ====
section
/-! DEFINITION. From a request to the operation it asks for (rules R37, R39, R45, R46, R49), and back. The encoded word holds
no operation code (R49): the interface names the operation, the operand fields name stage C's class, and the sampled
`ctx.rm` names stage R's mode. -/

namespace Sys2Proof

open Sys2Proof.Machine

/-- Why a request has no meaning: the rows of rule R46's table. -/
inductive DecodeError
  /-- the operands of a `CQ` request differ in sign (U4) -/
  | mixedSigns
  /-- `rm` holds a reserved code where an `RQ` request samples it (U5) -/
  | reservedRoundingMode
  /-- the `sig` of an `RQ` request lies outside [2^30, 2^31) (U6) -/
  | unnormalisedSignificand
  deriving DecidableEq, Repr

/-- The `CMB.*` operation of a dispatch class. -/
def instrOfClass : DispatchClass → Word → Word → Instr
  | .subsum, a, b => .cmbSubsum a b
  | .nanEq, a, b => .cmbNanEq a b
  | .infEq, a, b => .cmbInfEq a b
  | .eqExact, a, b => .cmbEqExact a b
  | .eqRound, a, b => .cmbEqRound a b
  | .nanFarB, a, b => .cmbNanFarB a b
  | .infFarB, a, b => .cmbInfFarB a b
  | .nanFarA, a, b => .cmbNanFarA a b
  | .infFarA, a, b => .cmbInfFarA a b
  | .alignBFar, a, b => .cmbAlignBFar a b
  | .alignAFar, a, b => .cmbAlignAFar a b

/-- The `RPK.*` operation of a rounding mode. -/
def instrOfMode : RoundingMode → Bool → ExpPort → Word → Instr
  | .rne, sign, exp, sig => .rpkRne sign exp sig
  | .rtz, sign, exp, sig => .rpkRtz sign exp sig
  | .rdn, sign, exp, sig => .rpkRdn sign exp sig
  | .rup, sign, exp, sig => .rpkRup sign exp sig
  | .rmm, sign, exp, sig => .rpkRmm sign exp sig
  | .rod, sign, exp, sig => .rpkRod sign exp sig

/-- The decoder: total on every request, rejecting by name. `roundOdd` is the parameter `ROUND_ODD` and `rm` the code sampled
with the request (R93); only an `RQ` request looks at them, since stage C does not read `rm` (R69). -/
def decode (roundOdd : Bool) (rm : RmCode) (r : Request) : Except DecodeError Instr :=
  match r with
  | .combine q =>
      if sameSign (cqA q) (cqB q) then .ok (instrOfClass (classify (cqA q) (cqB q)) (cqA q) (cqB q))
      else .error .mixedSigns
  | .addMags q =>
      if sameSign (cqA q) (cqB q) then .ok (.addmagsF32 (cqA q) (cqB q))
      else .error .mixedSigns
  | .roundPack q =>
      if legalSig (rqSig q) then
        match modeOfCode roundOdd rm with
        | some m => .ok (instrOfMode m (rqSign q) (rqExp q) (rqSig q))
        | none => .error .reservedRoundingMode
      else .error .unnormalisedSignificand

/-- The encoder: the request that asks for an instruction (rules R37 and R39). -/
def encode : Instr → Request
  | .cmbSubsum a b => .combine (cqPack a b)
  | .cmbNanEq a b => .combine (cqPack a b)
  | .cmbInfEq a b => .combine (cqPack a b)
  | .cmbEqExact a b => .combine (cqPack a b)
  | .cmbEqRound a b => .combine (cqPack a b)
  | .cmbNanFarB a b => .combine (cqPack a b)
  | .cmbInfFarB a b => .combine (cqPack a b)
  | .cmbNanFarA a b => .combine (cqPack a b)
  | .cmbInfFarA a b => .combine (cqPack a b)
  | .cmbAlignBFar a b => .combine (cqPack a b)
  | .cmbAlignAFar a b => .combine (cqPack a b)
  | .rpkRne sign exp sig => .roundPack (rqPack sign exp sig)
  | .rpkRtz sign exp sig => .roundPack (rqPack sign exp sig)
  | .rpkRdn sign exp sig => .roundPack (rqPack sign exp sig)
  | .rpkRup sign exp sig => .roundPack (rqPack sign exp sig)
  | .rpkRmm sign exp sig => .roundPack (rqPack sign exp sig)
  | .rpkRod sign exp sig => .roundPack (rqPack sign exp sig)
  | .addmagsF32 a b => .addMags (cqPack a b)

/-- The rounding mode an instruction is dispatched under: the `selector` of the table's `RPK.*` rows; none for the others. -/
def Instr.mode : Instr → Option RoundingMode
  | .rpkRne _ _ _ => some .rne
  | .rpkRtz _ _ _ => some .rtz
  | .rpkRdn _ _ _ => some .rdn
  | .rpkRup _ _ _ => some .rup
  | .rpkRmm _ _ _ => some .rmm
  | .rpkRod _ _ _ => some .rod
  | .cmbSubsum _ _ => none
  | .cmbNanEq _ _ => none
  | .cmbInfEq _ _ => none
  | .cmbEqExact _ _ => none
  | .cmbEqRound _ _ => none
  | .cmbNanFarB _ _ => none
  | .cmbInfFarB _ _ => none
  | .cmbNanFarA _ _ => none
  | .cmbInfFarA _ _ => none
  | .cmbAlignBFar _ _ => none
  | .cmbAlignAFar _ _ => none
  | .addmagsF32 _ _ => none

/-! ### The opcode table's own numbers -/

/-- One row of spec/opcode_table.json: the request's width in bits, and the bits (`mask`) that every request of the row has
at given values (`value`). -/
structure TableRow where
  width : Nat
  value : Nat
  mask : Nat
  deriving DecidableEq, Repr

/-- The `width`, `match` and `mask` of the row an instruction stands for. -/
def tableRow : Instr → TableRow
  | .cmbSubsum _ _ => ⟨64, 0x0000000000000000, 0x7F8000007F800000⟩
  | .cmbNanEq _ _ => ⟨64, 0x7F8000007F800000, 0x7F8000007F800000⟩
  | .cmbInfEq _ _ => ⟨64, 0x7F8000007F800000, 0x7FFFFFFF7FFFFFFF⟩
  | .cmbEqExact _ _ => ⟨64, 0x0000000000000000, 0x0000000000000000⟩
  | .cmbEqRound _ _ => ⟨64, 0x0000000000000000, 0x0000000000000000⟩
  | .cmbNanFarB _ _ => ⟨64, 0x000000007F800000, 0x000000007F800000⟩
  | .cmbInfFarB _ _ => ⟨64, 0x000000007F800000, 0x000000007FFFFFFF⟩
  | .cmbNanFarA _ _ => ⟨64, 0x7F80000000000000, 0x7F80000000000000⟩
  | .cmbInfFarA _ _ => ⟨64, 0x7F80000000000000, 0x7FFFFFFF00000000⟩
  | .cmbAlignBFar _ _ => ⟨64, 0x0000000000000000, 0x0000000000000000⟩
  | .cmbAlignAFar _ _ => ⟨64, 0x0000000000000000, 0x0000000000000000⟩
  | .rpkRne _ _ _ => ⟨49, 0x0000040000000, 0x00000C0000000⟩
  | .rpkRtz _ _ _ => ⟨49, 0x0000040000000, 0x00000C0000000⟩
  | .rpkRdn _ _ _ => ⟨49, 0x0000040000000, 0x00000C0000000⟩
  | .rpkRup _ _ _ => ⟨49, 0x0000040000000, 0x00000C0000000⟩
  | .rpkRmm _ _ _ => ⟨49, 0x0000040000000, 0x00000C0000000⟩
  | .rpkRod _ _ _ => ⟨49, 0x0000040000000, 0x00000C0000000⟩
  | .addmagsF32 _ _ => ⟨64, 0x0000000000000000, 0x0000000000000000⟩

/-- The width and the bits of a request, as a number with bit 0 its least significant bit. -/
def Request.width : Request → Nat
  | .combine _ => 64
  | .addMags _ => 64
  | .roundPack _ => 49

def Request.bits : Request → Nat
  | .combine q => q.toNat
  | .addMags q => q.toNat
  | .roundPack q => q.toNat

/-- The request a bare word of the table is taken as (log entry 11): the word does not say which interface it arrives on
(R49), so its length does. 33 to 56 bits is an `RQ` word (49 bits, 56 in whole bytes); more is a `CQ` word on the
interface of `Combine`. A word of at most 32 bits is what the reader's `fixed` fields give a row: with bits 30:23 all ones
it is the low half of a `CQ` word (`CMB.NAN_FAR_B`, `CMB.INF_FAR_B`), else with bits 31:30 equal to 01 it is the low half of
an `RQ` word (`RPK.*`), else of a `CQ` word. -/
def tableRequest (nbits w : Nat) : Request :=
  if 56 < nbits then .combine (BitVec.ofNat 64 w)
  else if 32 < nbits then .roundPack (BitVec.ofNat 49 w)
  else if w / 2 ^ 23 % 256 = 255 then .combine (BitVec.ofNat 64 w)
  else if w / 2 ^ 30 % 4 = 1 then .roundPack (BitVec.ofNat 49 w)
  else .combine (BitVec.ofNat 64 w)

/-- The instruction the decoder reads from a bare word of the table, under the rounding mode and the parameter
`ROUND_ODD` of the state after reset (log entries 2 and 3). The six `RPK.*` rows have one and the same word (their
`selector` is `ctx.rm`), and so have `ADDMAGS.F32` and the `CMB.*` class of its operands (log entry 11). -/
def decodeTableWord (nbits w : Nat) : Option Instr :=
  match decode true 0 (tableRequest nbits w) with
  | .ok i => some i
  | .error _ => none

end Sys2Proof
end

