-- ==== Sys2Proof/Config.lean ====
section
/-! DEFINITION. The open parameter `propagateNaN` of rule R9 as a free value. `ROUND_ODD` (R11) is a field of State and
`ctx0` (R121) is the context a run starts with. -/

namespace Sys2Proof

/-- What the contract of rule R9 leaves free in the answer of `propagateNaN` when an operand is a NaN: the sign, which of
the 2^23 - 1 nonzero fractions the NaN has (`fracIndex + 1`), and whether invalid is raised. -/
structure NanChoice where
  sign : Bool
  fracIndex : Fin 8388607
  invalid : Bool
  deriving DecidableEq, Repr, Inhabited

/-- FREE VALUE (log entry 4): the policy of `propagateNaN`, a function of the two operand words in operand order
and of nothing else (rule R9). -/
opaque Config.nanChoice : Word → Word → NanChoice

end Sys2Proof
end

