-- ==== Sys2Proof/Machine/Flags.lean ====
section
/-! DEFINITION. The exception flags: their positions (R43), raising them (R12, R17), and the computations that decide underflow
and inexact (R75, R78). -/

namespace Sys2Proof.Machine

open Sys2Proof

/-- The flag positions of rule R43. -/
def flagNX : FlagSet := 0x01
def flagUF : FlagSet := 0x02
def flagOF : FlagSet := 0x04
def flagDZ : FlagSet := 0x08
def flagNV : FlagSet := 0x10

/-- `raise Flags(S)` on an accumulator, rules R12 and R17: an OR and nothing else. -/
def raiseFlags (acc raised : FlagSet) : FlagSet := acc ||| raised

/-- The inexact flag of rule R78: raised exactly when the round bits are nonzero. -/
def inexactFlag (roundBits : Nat) : FlagSet := if roundBits = 0 then 0 else flagNX

/-- `isTiny` of rule R75, from `sig` and `exp` as they entered stage R. -/
def isTiny (t : Tininess) (exp : Int) (sig roundIncrement : Nat) : Bool :=
  t == .before || decide (exp < -1) || decide (sig + roundIncrement < 2 ^ 31)

/-- The underflow flag of rule R75: raised exactly when the result is tiny and the recomputed round bits are nonzero. -/
def underflowFlag (tiny : Bool) (roundBits : Nat) : FlagSet := if tiny && roundBits != 0 then flagUF else 0

/-- The flags of the overflow path, rule R76. -/
def overflowFlags : FlagSet := flagOF ||| flagNX

end Sys2Proof.Machine
end

