-- ==== Sys2Proof/Machine/State.lean ====
section
/-! DEFINITION. The state: the ambient context (10_state.md R14), the parameter `ROUND_ODD` (R11), and the caller's side of the
request and response interfaces (R47, R129). The block itself holds nothing (R13, R120). -/

namespace Sys2Proof.Machine

open Sys2Proof

/-- The machine between two transactions. -/
structure State where
  /-- the ambient context, owned by the caller, rule R14 -/
  ctx : Ctx
  /-- the parameter `ROUND_ODD`, rule R11: whether the toward-odd mode exists; no step changes it (log entry 3) -/
  roundOdd : Bool
  /-- the lines of the caller's transcript not yet run, the next one first, rules R22 and R47 -/
  program : List Line
  /-- the transcript variables bound so far, in strictly rising order of their numbers, rule R47 -/
  vars : List (Nat × Word)
  /-- the responses given so far, in order, rule R129 -/
  responses : List Response
  deriving DecidableEq, Repr

/-- The block has no fault: stage C has "no local errors" and stage R "never fails" (rules R91, R109). No step can answer one,
since this type has no constructor. -/
inductive Fault
  deriving DecidableEq, Repr

/-- Why a step gives no next state. The first three are the rows of rule R46's table; all are safe (the model stops where
the spec gives no meaning). -/
inductive Refusal
  /-- An instruction that has no meaning in this model. Raised by `exec` alone; no arm raises it. Safe. -/
  | notModelled (mnemonic : String)
  /-- The operands of a `CQ` request differ in sign (R3, R46, U4). Raised by every `CMB.*` and by `ADDMAGS.F32`. Safe. -/
  | mixedSigns
  /-- `rm` holds a reserved code where stage R is reached (R46, U5). Raised by `ADDMAGS.F32` on a `ROUND` exit, by the dispatch
  of an `RQ` request, and by `RPK.ROD` when `ROUND_ODD` is false. Safe. -/
  | reservedRoundingMode
  /-- The `sig` of an `RQ` request lies outside [2^30, 2^31) (R46, R70, U6). Raised by every `RPK.*`. Safe. -/
  | unnormalisedSignificand
  /-- A `CMB.*` operation named on operands of another dispatch class; no request decodes to one (R45, log entry 10). Safe. -/
  | outsideDispatchClass
  /-- A transcript line uses a variable that no earlier line has bound (R47, log entry 8). Safe. -/
  | unboundVariable
  deriving DecidableEq, Repr

/-- The state after reset. The spec gives the context no reset value (R121: `ctx0` is open): the values are the family's,
PRESUMED, log entry 2. `roundOdd` is a DESIGN CHOICE, log entry 3. The transcript is empty: a program is loaded from
outside, log entry 12. -/
def State.reset : State :=
  { ctx := { rm := 0, tininess := .after, flags := 0 }
    roundOdd := true
    program := []
    vars := []
    responses := [] }

end Sys2Proof.Machine
end

