-- ==== Sys2Proof/Machine/Ops.lean ====
section
/-! DEFINITION. The shared operations: the collaborator primitives `pack`, `stickyShiftRight` and `propagateNaN` (R7 to R9), giving
a response (R29, R40), and the transcript variables (R47). The block takes no exception (R109), so there is no operation
for taking or returning from one. -/

namespace Sys2Proof.Machine

open Sys2Proof

/-! ### The primitives -/

/-- `pack`, rule R7: integer ADDITION of the three fields at their positions, so that a carry out of the significand
moves into the exponent field. -/
def pack (sign : Bool) (exp frac : Nat) : Nat := sign.toNat * 2 ^ 31 + exp * 2 ^ 23 + frac

/-- The word `pack` gives; every use in the spec yields a value below 2^32 (R7, R24). -/
def packWord (sign : Bool) (exp frac : Nat) : Word := BitVec.ofNat 32 (pack sign exp frac)

/-- `stickyShiftRight`, rule R8: the discarded bits are OR-folded into the lowest retained bit. -/
def stickyShiftRight (v count : Nat) : Nat := (v >>> count) ||| (if v % 2 ^ count = 0 then 0 else 1)

/-- `propagateNaN`, rule R9, for its only use, a request with a NaN operand: some NaN, and invalid or nothing, as the free
value `Config.nanChoice` says (log entry 4). The operands keep their order. -/
def propagateNaN (uiA uiB : Word) : RR :=
  { word := packWord (Config.nanChoice uiA uiB).sign 255 ((Config.nanChoice uiA uiB).fracIndex.val + 1)
    raise := if (Config.nanChoice uiA uiB).invalid then flagNV else 0 }

/-! ### Responses (rules R29, R40, R93) -/

/-- Give a response and touch nothing else. -/
def State.emit (s : State) (r : Response) : State := { s with responses := s.responses ++ [r] }

/-- End a transaction that answers an `RR` record: the response is given and its raised set is committed to `ctx.flags`
as one OR (R29, R40, R93); `rm` and `tininess` stay (R15, R16). -/
def State.respond (s : State) (r : RR) : State :=
  { s with
    ctx := { s.ctx with flags := raiseFlags s.ctx.flags r.raise }
    responses := s.responses ++ [.rr r] }

/-- The mode the context selects, rules R41 and R46. -/
def State.mode (s : State) : Option RoundingMode := modeOfCode s.roundOdd s.ctx.rm

/-! ### Transcript variables (rule R47) -/

/-- Bind variable `n`, keeping the list in strictly rising order of the numbers. -/
def setVar (n : Nat) (w : Word) : List (Nat × Word) → List (Nat × Word)
  | [] => [(n, w)]
  | (k, v) :: rest =>
      if n < k then (n, w) :: (k, v) :: rest
      else if n = k then (n, w) :: rest
      else (k, v) :: setVar n w rest

/-- The word bound to variable `n`, if any. -/
def getVar (n : Nat) : List (Nat × Word) → Option Word
  | [] => none
  | (k, v) :: rest => if n = k then some v else getVar n rest

/-- The form `vars` keeps: the numbers strictly rise, so each is bound once. -/
def varsSorted : List (Nat × Word) → Bool
  | [] => true
  | (k, _) :: rest => rest.all (fun p => decide (k < p.1)) && varsSorted rest

end Sys2Proof.Machine
end

