-- ==== Sys2Proof/Machine/Combiner.lean ====
section
/-! DEFINITION. Stage C, the Magnitude Combiner (40_combiner.md): one path for each dispatch class (R53 to R64), `Combine` (R50), and the
meanings of the eleven `CMB.*` operations. -/

namespace Sys2Proof.Machine

open Sys2Proof

/-! ### The constants of the working convention (00_scope.md section 5.3; rules R10, R44) -/

/-- `PRE`, the left shift from a raw fraction to the pre-sum position. -/
@[simp] def pre : Nat := 6
/-- `IMPL`, the implicit leading bit in the pre-sum position. -/
@[simp] def impl : Nat := 0x20000000
/-- `SIG_NORM`, the leading bit of a normalised working significand. -/
@[simp] def sigNorm : Nat := 0x40000000
/-- `EQ_BIAS`, the two implicit leading bits of two equal-exponent operands at raw-fraction scale. -/
@[simp] def eqBias : Nat := 0x01000000

/-! ### The paths (rules R53 to R64) -/

/-- Rule R53: `uiZ = uiA + fracB`, an addition of the whole word. -/
def pathSubsum (uiA uiB : Word) : CO := .early (BitVec.ofNat 32 (uiA.toNat + fracOf uiB))

/-- Rule R54: delegate. -/
def pathNanEq (_uiA _uiB : Word) : CO := .nan

/-- Rule R55: `uiA` unchanged. -/
def pathInfEq (uiA _uiB : Word) : CO := .early uiA

/-- Rule R56: the exact shortcut. -/
def pathEqExact (uiA uiB : Word) : CO :=
  .early (packWord (signOf uiA) (expOf uiA) ((eqBias + fracOf uiA + fracOf uiB) >>> 1))

/-- Rule R57: the sum moved into the working convention, with the common exponent. -/
def pathEqRound (uiA uiB : Word) : CO :=
  .round (signOf uiA) (expOf uiA) (BitVec.ofNat 32 ((eqBias + fracOf uiA + fracOf uiB) <<< pre))

/-- Rule R58: delegate. -/
def pathNanFarB (_uiA _uiB : Word) : CO := .nan

/-- Rule R59: the infinity of the common sign. -/
def pathInfFarB (uiA _uiB : Word) : CO := .early (packWord (signOf uiA) 255 0)

/-- Rule R60: delegate. -/
def pathNanFarA (_uiA _uiB : Word) : CO := .nan

/-- Rule R61: the infinity of the common sign. -/
def pathInfFarA (uiA _uiB : Word) : CO := .early (packWord (signOf uiA) 255 0)

/-- The near operand of rule R62 before its shift: moved up by `PRE`, with its implicit leading bit if it is normal, doubled
if it is subnormal (90_conflicts.md C1). -/
def nearPlaced (expNear fracNear : Nat) : Nat :=
  if expNear ≠ 0 then (fracNear <<< pre) + impl else (fracNear <<< pre) + (fracNear <<< pre)

/-- `AlignSum`, rule R62. The renormalising step is taken exactly when the sum is below `SIG_NORM` (90_conflicts.md C3). -/
def alignSum (sign : Bool) (expFar fracFar expNear fracNear : Nat) : CO :=
  let sigNear := stickyShiftRight (nearPlaced expNear fracNear) (expFar - expNear)
  let sigZ := impl + (fracFar <<< pre) + sigNear
  if sigZ < sigNorm then .round sign ((expFar : Int) - 1) (BitVec.ofNat 32 (sigZ <<< 1))
  else .round sign (expFar : Int) (BitVec.ofNat 32 sigZ)

/-- Rule R63: far is B, near is A. -/
def pathAlignBFar (uiA uiB : Word) : CO := alignSum (signOf uiA) (expOf uiB) (fracOf uiB) (expOf uiA) (fracOf uiA)

/-- Rule R64: far is A, near is B. -/
def pathAlignAFar (uiA uiB : Word) : CO := alignSum (signOf uiA) (expOf uiA) (fracOf uiA) (expOf uiB) (fracOf uiB)

/-- `Combine`, rule R50: the path of the pair's class. It reads no context (R69) and raises no flag (R67). -/
def combine (uiA uiB : Word) : CO :=
  match classify uiA uiB with
  | .subsum => pathSubsum uiA uiB
  | .nanEq => pathNanEq uiA uiB
  | .infEq => pathInfEq uiA uiB
  | .eqExact => pathEqExact uiA uiB
  | .eqRound => pathEqRound uiA uiB
  | .nanFarB => pathNanFarB uiA uiB
  | .infFarB => pathInfFarB uiA uiB
  | .nanFarA => pathNanFarA uiA uiB
  | .infFarA => pathInfFarA uiA uiB
  | .alignBFar => pathAlignBFar uiA uiB
  | .alignAFar => pathAlignAFar uiA uiB

/-! ### The meanings of the `CMB.*` operations -/

/-- Run one path of stage C on a request: refused if the operands differ in sign (R46) or lie outside the class (R45,
log entry 10); otherwise the `CO` record is the response and the context is not touched (R67, R69). -/
def runPath (c : DispatchClass) (path : Word → Word → CO) (uiA uiB : Word) (s : State) : Host.Outcome State Fault Refusal :=
  if sameSign uiA uiB then
    if inClass c uiA uiB then .next (s.emit (.co (path uiA uiB)))
    else .refused .outsideDispatchClass
  else .refused .mixedSigns

/-- `CMB.SUBSUM`, rule R53. -/
def execCmbSubsum (uiA uiB : Word) (s : State) : Host.Outcome State Fault Refusal := runPath .subsum pathSubsum uiA uiB s

/-- `CMB.NAN_EQ`, rule R54. -/
def execCmbNanEq (uiA uiB : Word) (s : State) : Host.Outcome State Fault Refusal := runPath .nanEq pathNanEq uiA uiB s

/-- `CMB.INF_EQ`, rule R55. -/
def execCmbInfEq (uiA uiB : Word) (s : State) : Host.Outcome State Fault Refusal := runPath .infEq pathInfEq uiA uiB s

/-- `CMB.EQ_EXACT`, rule R56. -/
def execCmbEqExact (uiA uiB : Word) (s : State) : Host.Outcome State Fault Refusal := runPath .eqExact pathEqExact uiA uiB s

/-- `CMB.EQ_ROUND`, rule R57. -/
def execCmbEqRound (uiA uiB : Word) (s : State) : Host.Outcome State Fault Refusal := runPath .eqRound pathEqRound uiA uiB s

/-- `CMB.NAN_FAR_B`, rule R58. -/
def execCmbNanFarB (uiA uiB : Word) (s : State) : Host.Outcome State Fault Refusal := runPath .nanFarB pathNanFarB uiA uiB s

/-- `CMB.INF_FAR_B`, rule R59. -/
def execCmbInfFarB (uiA uiB : Word) (s : State) : Host.Outcome State Fault Refusal := runPath .infFarB pathInfFarB uiA uiB s

/-- `CMB.NAN_FAR_A`, rule R60. -/
def execCmbNanFarA (uiA uiB : Word) (s : State) : Host.Outcome State Fault Refusal := runPath .nanFarA pathNanFarA uiA uiB s

/-- `CMB.INF_FAR_A`, rule R61. -/
def execCmbInfFarA (uiA uiB : Word) (s : State) : Host.Outcome State Fault Refusal := runPath .infFarA pathInfFarA uiA uiB s

/-- `CMB.ALIGN_B_FAR`, rule R63. -/
def execCmbAlignBFar (uiA uiB : Word) (s : State) : Host.Outcome State Fault Refusal := runPath .alignBFar pathAlignBFar uiA uiB s

/-- `CMB.ALIGN_A_FAR`, rule R64. -/
def execCmbAlignAFar (uiA uiB : Word) (s : State) : Host.Outcome State Fault Refusal := runPath .alignAFar pathAlignAFar uiA uiB s

end Sys2Proof.Machine
end

