-- ==== Sys2Proof/Machine/Rounder.lean ====
section
/-! DEFINITION. Stage R, the Rounder/Packer (41_rounder_packer.md): the eight steps of rules R71 to R82 and the meanings of the six
`RPK.*` operations. -/

namespace Sys2Proof.Machine

open Sys2Proof

/-! ### The steps -/

/-- Step 1, rule R72: the rounding increment. -/
def roundIncrement (m : RoundingMode) (sign : Bool) : Nat :=
  match m, sign with
  | .rne, _ => 0x40
  | .rmm, _ => 0x40
  | .rdn, true => 0x7F
  | .rdn, false => 0
  | .rup, true => 0
  | .rup, false => 0x7F
  | .rtz, _ => 0
  | .rod, _ => 0

/-- Step 2, rule R73: the low round-bit slice. -/
def roundBits (sig : Nat) : Nat := sig % 2 ^ 7

/-- `v & ~1`, the correction of step 6, rule R80. -/
def clearLowBit (v : Nat) : Nat := 2 * (v / 2)

/-- Step 3, the overflow answer of rule R76: the infinity of the sign, or one less (the largest finite value) if the
increment is 0. -/
def overflowResult (m : RoundingMode) (sign : Bool) : RR :=
  { word := BitVec.ofNat 32 (pack sign 0xFF 0 - (if roundIncrement m sign = 0 then 1 else 0))
    raise := overflowFlags }

/-- Steps 6 to 8, rules R80 to R82: the tie correction, the canonical zero, the packing. -/
def finishWord (m : RoundingMode) (sign : Bool) (exp sig bits : Nat) : Word :=
  let corrected := if bits = 0x40 ∧ m = .rne then clearLowBit sig else sig
  packWord sign (if corrected = 0 then 0 else exp) corrected

/-- Steps 4 to 8, rules R77 to R82, on the significand, exponent and round bits that step 3 leaves (90_conflicts.md C4, C5);
`raised` is what step 3 raised. -/
def roundTail (m : RoundingMode) (sign : Bool) (exp sig bits : Nat) (raised : FlagSet) : RR :=
  let rounded := (sig + roundIncrement m sign) >>> 7
  { word :=
      if bits ≠ 0 ∧ m = .rod then packWord sign exp (rounded ||| 1)
      else finishWord m sign exp rounded bits
    raise := raised ||| inexactFlag bits }

/-- Whether step 3 takes the overflow path, rule R76 (for a non-negative exponent). -/
def overflows (m : RoundingMode) (sign : Bool) (exp : Int) (sig : Nat) : Bool :=
  decide (0xFD < exp) || (decide (exp = 0xFD) && decide (2 ^ 31 ≤ sig + roundIncrement m sign))

/-- `RoundPack`, rules R70 and R71. The exponent is a mathematical integer (R5, R39). -/
def roundPack (m : RoundingMode) (t : Tininess) (sign : Bool) (exp : Int) (sig : Word) : RR :=
  if exp < 0 then
    let shifted := stickyShiftRight sig.toNat (-exp).toNat
    roundTail m sign 0 shifted (roundBits shifted)
      (underflowFlag (isTiny t exp sig.toNat (roundIncrement m sign)) (roundBits shifted))
  else if overflows m sign exp sig.toNat then overflowResult m sign
  else roundTail m sign exp.toNat sig.toNat (roundBits sig.toNat) 0

/-! ### The meanings of the `RPK.*` operations -/

/-- Run stage R alone under a mode: refused outside the domain of rule R70 (R46); otherwise the `RR` record is the response
and its flags are committed. `tininess` is sampled here, once (R93). -/
def runRoundPack (m : RoundingMode) (sign : Bool) (exp : ExpPort) (sig : Word) (s : State) : Host.Outcome State Fault Refusal :=
  if legalSig sig then .next (s.respond (roundPack m s.ctx.tininess sign exp.toInt sig))
  else .refused .unnormalisedSignificand

/-- `RPK.RNE`, rule R83. -/
def execRpkRne (sign : Bool) (exp : ExpPort) (sig : Word) (s : State) : Host.Outcome State Fault Refusal :=
  runRoundPack .rne sign exp sig s

/-- `RPK.RTZ`, rule R85. -/
def execRpkRtz (sign : Bool) (exp : ExpPort) (sig : Word) (s : State) : Host.Outcome State Fault Refusal :=
  runRoundPack .rtz sign exp sig s

/-- `RPK.RDN`, rule R86. -/
def execRpkRdn (sign : Bool) (exp : ExpPort) (sig : Word) (s : State) : Host.Outcome State Fault Refusal :=
  runRoundPack .rdn sign exp sig s

/-- `RPK.RUP`, rule R87. -/
def execRpkRup (sign : Bool) (exp : ExpPort) (sig : Word) (s : State) : Host.Outcome State Fault Refusal :=
  runRoundPack .rup sign exp sig s

/-- `RPK.RMM`, rule R84. -/
def execRpkRmm (sign : Bool) (exp : ExpPort) (sig : Word) (s : State) : Host.Outcome State Fault Refusal :=
  runRoundPack .rmm sign exp sig s

/-- `RPK.ROD`, rule R88: it exists only when `ROUND_ODD` holds (R11); without it the mode's code is reserved (R46). -/
def execRpkRod (sign : Bool) (exp : ExpPort) (sig : Word) (s : State) : Host.Outcome State Fault Refusal :=
  if s.roundOdd then runRoundPack .rod sign exp sig s else .refused .reservedRoundingMode

end Sys2Proof.Machine
end

