-- ==== Sys2Proof/Machine/Pipeline.lean ====
section
/-! DEFINITION. The whole operation `AddMagsF32` (42_pipeline.md R94): stage C, and then what its exit asks for. -/

namespace Sys2Proof.Machine

open Sys2Proof

/-- Finish a transaction from the exit of stage C, rule R94. A reserved `rm` is harmless to the exits `EARLY` and `NAN` and
refuses a `ROUND` exit (R46). -/
def finishPipeline (co : CO) (uiA uiB : Word) (s : State) : Host.Outcome State Fault Refusal :=
  match co with
  | .early w => .next (s.respond { word := w, raise := 0 })
  | .nan => .next (s.respond (propagateNaN uiA uiB))
  | .round sign exp sig =>
      match s.mode with
      | some m => .next (s.respond (roundPack m s.ctx.tininess sign exp sig))
      | none => .refused .reservedRoundingMode

/-- `ADDMAGS.F32`, rule R94; operands of different signs are refused (R3, R46). -/
def execAddmagsF32 (uiA uiB : Word) (s : State) : Host.Outcome State Fault Refusal :=
  if sameSign uiA uiB then finishPipeline (combine uiA uiB) uiA uiB s
  else .refused .mixedSigns

end Sys2Proof.Machine
end

