-- ==== Sys2Proof/Machine/Dispatch.lean ====
section
/-! DEFINITION. One arm for each instruction: the call of its meaning. -/

namespace Sys2Proof.Machine

open Sys2Proof

def exec (i : Instr) (s : State) : Host.Outcome State Fault Refusal :=
  match i with
  | .cmbSubsum uiA uiB => Sys2Proof.Machine.execCmbSubsum uiA uiB s
  | .cmbNanEq uiA uiB => Sys2Proof.Machine.execCmbNanEq uiA uiB s
  | .cmbInfEq uiA uiB => Sys2Proof.Machine.execCmbInfEq uiA uiB s
  | .cmbEqExact uiA uiB => Sys2Proof.Machine.execCmbEqExact uiA uiB s
  | .cmbEqRound uiA uiB => Sys2Proof.Machine.execCmbEqRound uiA uiB s
  | .cmbNanFarB uiA uiB => Sys2Proof.Machine.execCmbNanFarB uiA uiB s
  | .cmbInfFarB uiA uiB => Sys2Proof.Machine.execCmbInfFarB uiA uiB s
  | .cmbNanFarA uiA uiB => Sys2Proof.Machine.execCmbNanFarA uiA uiB s
  | .cmbInfFarA uiA uiB => Sys2Proof.Machine.execCmbInfFarA uiA uiB s
  | .cmbAlignBFar uiA uiB => Sys2Proof.Machine.execCmbAlignBFar uiA uiB s
  | .cmbAlignAFar uiA uiB => Sys2Proof.Machine.execCmbAlignAFar uiA uiB s
  | .rpkRne sign exp sig => Sys2Proof.Machine.execRpkRne sign exp sig s
  | .rpkRtz sign exp sig => Sys2Proof.Machine.execRpkRtz sign exp sig s
  | .rpkRdn sign exp sig => Sys2Proof.Machine.execRpkRdn sign exp sig s
  | .rpkRup sign exp sig => Sys2Proof.Machine.execRpkRup sign exp sig s
  | .rpkRmm sign exp sig => Sys2Proof.Machine.execRpkRmm sign exp sig s
  | .rpkRod sign exp sig => Sys2Proof.Machine.execRpkRod sign exp sig s
  | .addmagsF32 uiA uiB => Sys2Proof.Machine.execAddmagsF32 uiA uiB s

end Sys2Proof.Machine
end

