-- ==== Sys2Proof/Machine/Transcript.lean ====
section
/-! DEFINITION. One line of the caller's transcript (R47): a request, decoded and run, or an act of the caller on its own context
(R20, R113, R126). -/

namespace Sys2Proof.Machine

open Sys2Proof

/-- The refusal of a request the decoder rejects, row by row of rule R46's table. -/
def refusalOf : DecodeError → Refusal
  | .mixedSigns => .mixedSigns
  | .reservedRoundingMode => .reservedRoundingMode
  | .unnormalisedSignificand => .unnormalisedSignificand

/-- Bind the result word of the transaction just ended to the line's variable, rule R47. -/
def bindResult (dst : Option Nat) (s : State) : State :=
  match dst, s.responses.getLast? with
  | some n, some (.rr r) => { s with vars := setVar n r.word s.vars }
  | _, _ => s

/-- Run a request: dispatch under the context as it stands (R93), the instruction's meaning, the binding. -/
def runRequest (dst : Option Nat) (r : Request) (s : State) : Host.Outcome State Fault Refusal :=
  match decode s.roundOdd s.ctx.rm r with
  | .error e => .refused (refusalOf e)
  | .ok i =>
      match exec i s with
      | .next t => .next (bindResult dst t)
      | .fault f => .fault f
      | .refused e => .refused e

/-- The word an operand of an `ADDMAGS` line stands for, rule R47. -/
def operandWord (s : State) : Opnd → Option Word
  | .lit w => some w
  | .var n => getVar n s.vars

/-- The caller's writes of its context, rules R20 and R47. -/
def writeRm (s : State) (rm : RmCode) : State := { s with ctx := { s.ctx with rm := rm } }
def writeTininess (s : State) (t : Tininess) : State := { s with ctx := { s.ctx with tininess := t } }
def writeFlags (s : State) (f : FlagSet) : State := { s with ctx := { s.ctx with flags := f } }

/-- Run one line. -/
def runLine (l : Line) (s : State) : Host.Outcome State Fault Refusal :=
  match l with
  | .addMags dst a b =>
      match operandWord s a, operandWord s b with
      | some x, some y => runRequest (some dst) (.addMags (cqPack x y)) s
      | _, _ => .refused .unboundVariable
  | .roundPack dst sign exp sig => runRequest (some dst) (.roundPack (rqPack sign exp sig)) s
  | .setRm m => .next (writeRm s (modeCode m))
  | .setTininess t => .next (writeTininess s t)
  | .clrFlags => .next (writeFlags s 0)
  | .writeCtx w => .next { s with ctx := ctxOfFctx w }
  | .readCtx => .next (s.emit (.fctx (fctxOfCtx s.ctx)))
  | .request r => runRequest none r s

end Sys2Proof.Machine
end

