-- ==== Sys2Proof/Machine/Step.lean ====
section
/-! DEFINITION. One step: the next line of the caller's transcript, one atomic transaction or caller write (R29, R129). -/

namespace Sys2Proof.Machine

open Sys2Proof

/-- Run the first line of the transcript. With no line left the run has ended (R129): the block, which never halts, does
nothing until it is asked (log entry 6). -/
def step (s : State) : Host.Outcome State Fault Refusal :=
  match s.program with
  | [] => .next s
  | l :: rest => runLine l { s with program := rest }

/-- `s` with the request a table word stands for as the next line of its transcript (log entries 11 and 12). -/
def State.withFetchWord (s : State) (nbits w : Nat) : State :=
  { s with program := .request (tableRequest nbits w) :: s.program }

end Sys2Proof.Machine
end

