-- ==== Sys2Proof/Machine/Value.lean ====
section
/-! DEFINITION. The numbers that words and triples stand for (R33, R36). No rule of stage C or stage R uses them; statements about
results as numbers do (R92, R103). -/

namespace Sys2Proof.Machine

open Sys2Proof

/-- The magnitude of a finite word, rule R33: `f × 2^-149` for exponent field 0, `(2^23 + f) × 2^(e - 150)` for 1 to 254. -/
def magnitude (w : Word) : ℚ :=
  if expOf w = 0 then (fracOf w : ℚ) * (2 : ℚ) ^ (-149 : ℤ)
  else ((2 ^ 23 + fracOf w : ℕ) : ℚ) * (2 : ℚ) ^ ((expOf w : ℤ) - 150)

/-- The magnitude of a triple, rule R36: `sig × 2^(exp - 156)`. -/
def tripleMagnitude (exp : Int) (sig : Word) : ℚ := (sig.toNat : ℚ) * (2 : ℚ) ^ (exp - 156)

end Sys2Proof.Machine
end

