-- ==== Sys2Proof/Machine/Ieee.lean ====
section
/-! DEFINITION. What it means to round an exact magnitude to binary32, written from the description of the reference in
95_test_vectors.md section 5 and rule R102's table over exact rationals, with no round bits, no sticky shift and no
increment: the yardstick of rules R92 and R103. -/

namespace Sys2Proof.Machine

open Sys2Proof

/-- Round a non-negative rational to an integer in the direction a mode names (rule R41's last column). `sign` is the sign of
the value whose magnitude is rounded. -/
def roundToInt (m : RoundingMode) (sign : Bool) (y : ℚ) : ℤ :=
  let down := ⌊y⌋
  let rest := y - down
  match m with
  | .rne => if rest < 1 / 2 then down else if 1 / 2 < rest then down + 1 else if down % 2 = 0 then down else down + 1
  | .rmm => if rest < 1 / 2 then down else down + 1
  | .rtz => down
  | .rdn => if sign ∧ rest ≠ 0 then down + 1 else down
  | .rup => if ¬ sign ∧ rest ≠ 0 then down + 1 else down
  | .rod => if rest = 0 then down else if down % 2 = 0 then down + 1 else down

/-- Round a magnitude to a multiple of `2^quantum`. -/
def roundToGrid (m : RoundingMode) (sign : Bool) (x : ℚ) (quantum : ℤ) : ℚ :=
  (roundToInt m sign (x / (2 : ℚ) ^ quantum) : ℚ) * (2 : ℚ) ^ quantum

/-- The exponent of the last of the 24 significant bits of a magnitude, at unbounded exponent range. -/
def unboundedQuantum (x : ℚ) : ℤ := Int.log 2 x - 23

/-- The magnitude rounded to 24 significant bits as if the exponent range were unbounded. -/
def unboundedRounding (m : RoundingMode) (sign : Bool) (x : ℚ) : ℚ := roundToGrid m sign x (unboundedQuantum x)

/-- The magnitude rounded to the binary32 grid, whose spacing is at least `2^-149`. -/
def boundedRounding (m : RoundingMode) (sign : Bool) (x : ℚ) : ℚ := roundToGrid m sign x (max (unboundedQuantum x) (-149))

/-- The substitute word of an overflow, rule R102's table. -/
def overflowWord : RoundingMode → Bool → Word
  | .rne, false => 0x7F800000
  | .rne, true => 0xFF800000
  | .rmm, false => 0x7F800000
  | .rmm, true => 0xFF800000
  | .rtz, false => 0x7F7FFFFF
  | .rtz, true => 0xFF7FFFFF
  | .rod, false => 0x7F7FFFFF
  | .rod, true => 0xFF7FFFFF
  | .rdn, false => 0x7F7FFFFF
  | .rdn, true => 0xFF800000
  | .rup, false => 0x7F800000
  | .rup, true => 0xFF7FFFFF

/-- Whether a magnitude is tiny: below `2^-126` before rounding, or after rounding at unbounded exponent range. -/
def tinyMagnitude (m : RoundingMode) (t : Tininess) (sign : Bool) (x : ℚ) : Prop :=
  match t with
  | .before => x < (2 : ℚ) ^ (-126 : ℤ)
  | .after => unboundedRounding m sign x < (2 : ℚ) ^ (-126 : ℤ)

/-- `r` is the IEEE-754 binary32 rounding, with its flags, of the value of sign `sign` and magnitude `x`. -/
def IeeeRounding (m : RoundingMode) (t : Tininess) (sign : Bool) (x : ℚ) (r : RR) : Prop :=
  if (2 : ℚ) ^ (128 : ℤ) ≤ unboundedRounding m sign x then
    r.word = overflowWord m sign ∧ r.raise = flagOF ||| flagNX
  else
    signOf r.word = sign ∧ isFinite r.word = true ∧ magnitude r.word = boundedRounding m sign x ∧
    (boundedRounding m sign x = x → r.raise = 0) ∧
    (boundedRounding m sign x ≠ x → tinyMagnitude m t sign x → r.raise = flagUF ||| flagNX) ∧
    (boundedRounding m sign x ≠ x → ¬ tinyMagnitude m t sign x → r.raise = flagNX)

end Sys2Proof.Machine
end

