-- ==== Sys2Proof/Safety.lean ====
section
/-! DEFINITION. The terms in which claims are stated: the state a transaction leaves, the closed form of stage R's answers, and the
invariant of what leaves the block. -/

namespace Sys2Proof.Machine

open Sys2Proof

/-! ### The state a transaction leaves (rules R29, R40) -/

/-- `s` after a transaction that answers word `w` and raises `f`: one more response, `f` ORed into the flags, nothing else. -/
def afterWord (s : State) (w : Word) (f : FlagSet) : State :=
  { ctx := { rm := s.ctx.rm, tininess := s.ctx.tininess, flags := s.ctx.flags ||| f }
    roundOdd := s.roundOdd
    program := s.program
    vars := s.vars
    responses := s.responses ++ [.rr { word := w, raise := f }] }

/-- `s` after a request to stage C alone: one more response and nothing else. -/
def afterCO (s : State) (c : CO) : State :=
  { ctx := s.ctx
    roundOdd := s.roundOdd
    program := s.program
    vars := s.vars
    responses := s.responses ++ [.co c] }

/-- The word of given fields, put together by their numbers (R32). -/
def wordOf (sign : Bool) (exp frac : Nat) : Word := BitVec.ofNat 32 (sign.toNat * 2 ^ 31 + exp * 2 ^ 23 + frac)

/-! ### Stage R in closed form (rules R83 to R88) -/

/-- The answer of stage R for a mode that rounds a significand `t` with round bits `b` to `round t b` and overflows to `ovf`
(section 3 of 41_rounder_packer.md). A triple with a negative exponent is rounded after its sticky shift (R75), and is tiny
if tininess is detected before rounding, or `exp < -1`, or its significand rounded at its own precision stays below 2^24
(rule R75's test, read as the rule explains it). -/
def closedAnswer (round : Nat → Nat → Nat) (ovf : Word) (t : Tininess) (sign : Bool) (exp : Int) (sig : Nat) : RR :=
  if exp < 0 then
    let v := stickyShiftRight sig (-exp).toNat
    { word := wordOf sign 0 (round (v / 128) (v % 128))
      raise :=
        if v % 128 = 0 then 0
        else if t = .before ∨ exp < -1 ∨ round (sig / 128) (sig % 128) < 2 ^ 24 then flagUF ||| flagNX
        else flagNX }
  else if 253 < exp ∨ (exp = 253 ∧ round (sig / 128) (sig % 128) = 2 ^ 24) then
    { word := ovf, raise := flagOF ||| flagNX }
  else
    { word := wordOf sign exp.toNat (round (sig / 128) (sig % 128))
      raise := if sig % 128 = 0 then 0 else flagNX }

/-! ### The invariant of what leaves the block -/

/-- The flag sets one transaction can raise, rule R110. -/
def legalRaise (f : FlagSet) : Bool :=
  f == 0 || f == flagNX || f == flagUF ||| flagNX || f == flagOF ||| flagNX || f == flagNV

/-- What every response satisfies: an early word is no NaN (R67); a triple is in stage R's domain with an exponent of 0 to 254 (R65);
a raised set is one that can occur (R110), a raised invalid comes with a NaN (R9), and a raised overflow with an infinity or a
largest finite value (R76). -/
def responseOk : Response → Bool
  | .co (.early w) => !isNaN w
  | .co .nan => true
  | .co (.round _ exp sig) => decide (0 ≤ exp) && decide (exp ≤ 254) && legalSig sig
  | .rr r =>
      legalRaise r.raise && (!r.raise.getLsbD 4 || isNaN r.word) &&
        (!r.raise.getLsbD 2 || isInf r.word || (expOf r.word == 254 && fracOf r.word == 2 ^ 23 - 1))
  | .fctx _ => true

/-- The invariant: every response given so far is as `responseOk` says, and the transcript variables are in rising order. -/
def State.inv (s : State) : Prop := varsSorted s.vars = true ∧ s.responses.all responseOk = true

/-- A transcript line that is one transaction of the block, as against a caller's act on its context (R47, R113). -/
def isTransaction : Line → Bool
  | .addMags _ _ _ => true
  | .roundPack _ _ _ _ => true
  | .request _ => true
  | .setRm _ => false
  | .setTininess _ => false
  | .clrFlags => false
  | .writeCtx _ => false
  | .readCtx => false

/-- The flags a response says its transaction raised; a `CO` record raises none (R67). -/
def raisedBy : Response → FlagSet
  | .co _ => 0
  | .rr r => r.raise
  | .fctx _ => 0

end Sys2Proof.Machine
end

