-- ==== Sys2Proof/Certificates/Slice0/Obligations.lean ====
section
/-! DEFINITION. The statements for the provers. Each docstring names the rule of the spec it formalises; the word derived marks
what the spec itself derives or decides, or the model chose. -/

open Sys2Proof Sys2Proof.Machine

/-- decompose cuts a word at bits 31, 30:23 and 22:0. Stated: R6. -/
def Obligations.DecomposeCutsTheWordIntoItsFields : Prop :=
  ∀ w : Word,
    (decompose w).sign = w.getLsbD 31 ∧
    (decompose w).exp = w.toNat / 2 ^ 23 % 256 ∧ (decompose w).exp ≤ 255 ∧
    (decompose w).frac = w.toNat % 2 ^ 23 ∧ (decompose w).frac < 2 ^ 23 ∧
    (decompose w).sign.toNat * 2 ^ 31 + (decompose w).exp * 2 ^ 23 + (decompose w).frac = w.toNat

/-- Every word is exactly one of zero, subnormal, normal, infinity, NaN. Stated: R34. -/
def Obligations.ExactlyOneValueClassHoldsOfAWord : Prop :=
  ∀ w : Word,
    (isZero w = true ↔ expOf w = 0 ∧ fracOf w = 0) ∧
    (isSubnormal w = true ↔ expOf w = 0 ∧ fracOf w ≠ 0) ∧
    (isNormal w = true ↔ 1 ≤ expOf w ∧ expOf w ≤ 254) ∧
    (isInf w = true ↔ expOf w = 255 ∧ fracOf w = 0) ∧
    (isNaN w = true ↔ expOf w = 255 ∧ fracOf w ≠ 0) ∧
    (isFinite w = true ↔ expOf w ≤ 254) ∧
    (isZero w).toNat + (isSubnormal w).toNat + (isNormal w).toNat + (isInf w).toNat + (isNaN w).toNat = 1

/-- pack is an addition of the fields; a carry out of the fraction adds to the exponent. Stated: R7. -/
def Obligations.PackAddsTheFieldsAndCarriesIntoTheExponent : Prop :=
  ∀ (s : Bool) (e f : Nat),
    pack s e f = s.toNat <<< 31 + e <<< 23 + f ∧
    (f < 2 ^ 23 → e ≤ 255 → decompose (packWord s e f) = { sign := s, exp := e, frac := f }) ∧
    (2 ^ 23 ≤ f → f < 2 ^ 24 → e ≤ 254 → decompose (packWord s e f) = { sign := s, exp := e + 1, frac := f - 2 ^ 23 }) ∧
    (f = 2 ^ 24 → e ≤ 253 → decompose (packWord s e f) = { sign := s, exp := e + 2, frac := 0 })

/-- stickyShiftRight ORs every discarded bit into the lowest kept bit. Derived: 00_scope.md section 6 (stickyShiftRight; its clause for large counts is marked derived there), 91_not_in_source.md (N26: no source clause for large counts). -/
def Obligations.StickyShiftKeepsAnyDiscardedOne : Prop :=
  ∀ v c : Nat,
    (∀ k, (stickyShiftRight v c).testBit (k + 1) = v.testBit (c + k + 1)) ∧
    ((stickyShiftRight v c).testBit 0 = true ↔ ∃ k, k ≤ c ∧ v.testBit k = true) ∧
    stickyShiftRight v 0 = v ∧
    (v < 2 ^ c → stickyShiftRight v c = if v = 0 then 0 else 1) ∧
    (v < 2 ^ 31 → 31 ≤ c → stickyShiftRight v c = if v = 0 then 0 else 1)

/-- FCTX holds tininess in bit 8, rm in bits 7:5, flags in bits 4:0, and reads back. Derived: 10_state.md section 2 (the FCTX table, decision D9). -/
def Obligations.ContextWordLayoutIsReversible : Prop :=
  ∀ (c : Ctx) (w : FctxWord),
    (fctxOfCtx c).toNat = (tininessBit c.tininess).toNat * 256 + c.rm.toNat * 32 + c.flags.toNat ∧
    fctxOfCtx (ctxOfFctx w) = w ∧ ctxOfFctx (fctxOfCtx c) = c

/-- RR is word 36:5 and raise 4:0; CO is read by its kind code. Derived: 30_encoding.md section 3 (RR and CO, decision D3). -/
def Obligations.ResponseRecordsHaveTheirLayouts : Prop :=
  ∀ (r : RR) (sign : Bool) (exp : BitVec 16) (sig word : Word),
    (rrPack r).toNat = r.word.toNat * 32 + r.raise.toNat ∧
    coOfBits ((0 : BitVec 2) ++ BitVec.ofBool sign ++ exp ++ sig ++ word) = some (.early word) ∧
    coOfBits ((1 : BitVec 2) ++ BitVec.ofBool sign ++ exp ++ sig ++ word) = some .nan ∧
    coOfBits ((2 : BitVec 2) ++ BitVec.ofBool sign ++ exp ++ sig ++ word) = some (.round sign exp.toInt sig) ∧
    coOfBits ((3 : BitVec 2) ++ BitVec.ofBool sign ++ exp ++ sig ++ word) = none

/-- Every operand pair is in exactly one of the eleven classes, the one the sequential tests find. Derived: 30_encoding.md section 5 (the dispatch map, marked derived there), 40_combiner.md section 1 (order of tests). -/
def Obligations.DispatchClassesPartitionAllOperandPairs : Prop :=
  ∀ a b : Word, inClass (classify a b) a b = true ∧ ∀ c : DispatchClass, inClass c a b = true → c = classify a b

/-- Decoding the encoded request of any well-formed instruction gives it back. Derived: 30_encoding.md sections 3 to 5 (requests and the dispatch map). -/
def Obligations.DecodeOfEncodeIsTheInstruction : Prop :=
  ∀ (roundOdd : Bool) (rm : RmCode) (i : Instr), i.wellFormed = true →
    (∀ m, i.mode = some m → modeOfCode roundOdd rm = some m) →
    decode roundOdd rm (encode i) = .ok i

/-- A request that decodes is the encoding of the instruction it decodes to, which is well-formed. Derived: 30_encoding.md sections 3 to 5 (requests and the dispatch map). -/
def Obligations.EncodeOfDecodeIsTheRequest : Prop :=
  ∀ (roundOdd : Bool) (rm : RmCode) (r : Request) (i : Instr), decode roundOdd rm r = .ok i →
    encode i = r ∧ i.wellFormed = true ∧ ∀ m, i.mode = some m → modeOfCode roundOdd rm = some m

/-- A request is rejected exactly when it is one of the table of undefined inputs. Derived: 30_encoding.md section 6 (the table of refused inputs). -/
def Obligations.DecoderRejectsExactlyTheUndefinedRequests : Prop :=
  ∀ (roundOdd : Bool) (rm : RmCode) (q : CqWord) (p : RqWord),
    (decode roundOdd rm (.combine q) = .error .mixedSigns ↔ q.getLsbD 63 ≠ q.getLsbD 31) ∧
    (decode roundOdd rm (.addMags q) = .error .mixedSigns ↔ q.getLsbD 63 ≠ q.getLsbD 31) ∧
    (q.getLsbD 63 = q.getLsbD 31 → (∃ i, decode roundOdd rm (.combine q) = .ok i) ∧ ∃ i, decode roundOdd rm (.addMags q) = .ok i) ∧
    (decode roundOdd rm (.roundPack p) = .error .unnormalisedSignificand ↔
      ¬ (2 ^ 30 ≤ p.toNat % 2 ^ 32 ∧ p.toNat % 2 ^ 32 < 2 ^ 31)) ∧
    (decode roundOdd rm (.roundPack p) = .error .reservedRoundingMode ↔
      (2 ^ 30 ≤ p.toNat % 2 ^ 32 ∧ p.toNat % 2 ^ 32 < 2 ^ 31) ∧ (rm = 5 ∨ rm = 7 ∨ (rm = 6 ∧ roundOdd = false))) ∧
    ((2 ^ 30 ≤ p.toNat % 2 ^ 32 ∧ p.toNat % 2 ^ 32 < 2 ^ 31) → ¬ (rm = 5 ∨ rm = 7 ∨ (rm = 6 ∧ roundOdd = false)) →
      ∃ i, decode roundOdd rm (.roundPack p) = .ok i)

/-- The encoded request has the width of its opcode-table row and its fixed bits. Derived: opcode_table.json (width, match, mask), 30_encoding.md section 5. -/
def Obligations.EncodedRequestMatchesItsTableRow : Prop :=
  ∀ i : Instr, i.wellFormed = true →
    (encode i).width = (tableRow i).width ∧ (encode i).bits &&& (tableRow i).mask = (tableRow i).value

/-- A request word of each family decodes to the operation it stands for. Derived: 30_encoding.md sections 3 to 5, 95_test_vectors.md sections 1 to 3 (request columns). -/
def Obligations.SampleRequestWordsDecode : Prop :=
  decode true 0 (.combine 0x0000000100000001) = .ok (.cmbSubsum 0x00000001 0x00000001) ∧
  decode true 0 (.combine 0x7F8000017F800000) = .ok (.cmbNanEq 0x7F800001 0x7F800000) ∧
  decode true 0 (.combine 0x3F8000003F800000) = .ok (.cmbEqExact 0x3F800000 0x3F800000) ∧
  decode true 0 (.combine 0x3F0000003F800000) = .ok (.cmbAlignBFar 0x3F000000 0x3F800000) ∧
  decode true 0 (.addMags 0x7F7FFFFF7F7FFFFF) = .ok (.addmagsF32 0x7F7FFFFF 0x7F7FFFFF) ∧
  decode true 2 (.roundPack 0x1007E40000001) = .ok (.rpkRdn true 0x007E 0x40000001) ∧
  decode false 4 (.roundPack 0x0FFFF7FFFFFC0) = .ok (.rpkRmm false 0xFFFF 0x7FFFFFC0)

/-- CMB.SUBSUM answers the EARLY word uiA + fracB, exactly and with no flag. Stated: R53. -/
def Obligations.SubsumAnswersTheRawWordSum : Prop :=
  ∀ (s : State) (a b : Word), signOf a = signOf b → expOf a = 0 → expOf b = 0 →
    exec (.cmbSubsum a b) s = .next (afterCO s (.early (a + (b &&& 0x007FFFFF)))) ∧
    (a + (b &&& 0x007FFFFF)).toNat = a.toNat + fracOf b ∧
    signOf (a + (b &&& 0x007FFFFF)) = signOf a

/-- CMB.NAN_EQ, CMB.NAN_FAR_B and CMB.NAN_FAR_A answer NAN and raise nothing. Stated: R54, R58, R60. -/
def Obligations.NanClassesAnswerADelegation : Prop :=
  ∀ (s : State) (a b : Word), signOf a = signOf b →
    (expOf a = 255 → expOf b = 255 → (fracOf a ≠ 0 ∨ fracOf b ≠ 0) → exec (.cmbNanEq a b) s = .next (afterCO s .nan)) ∧
    (expOf a < 255 → expOf b = 255 → fracOf b ≠ 0 → exec (.cmbNanFarB a b) s = .next (afterCO s .nan)) ∧
    (expOf b < 255 → expOf a = 255 → fracOf a ≠ 0 → exec (.cmbNanFarA a b) s = .next (afterCO s .nan))

/-- CMB.INF_FAR_B and CMB.INF_FAR_A answer the infinity of the common sign. Derived: 40_combiner.md section 3 (CMB.INF_FAR_B and CMB.INF_FAR_A; that the word is the infinite operand is marked derived there), 92_eei_decisions.md (D27: which word is built). -/
def Obligations.InfinityPlusFiniteAnswersTheSignedInfinity : Prop :=
  ∀ (s : State) (a b : Word), signOf a = signOf b →
    (expOf a < 255 → expOf b = 255 → fracOf b = 0 →
      exec (.cmbInfFarB a b) s = .next (afterCO s (.early (if signOf a then 0xFF800000 else 0x7F800000))) ∧
      b = if signOf a then 0xFF800000 else 0x7F800000) ∧
    (expOf b < 255 → expOf a = 255 → fracOf a = 0 →
      exec (.cmbInfFarA a b) s = .next (afterCO s (.early (if signOf a then 0xFF800000 else 0x7F800000))) ∧
      a = if signOf a then 0xFF800000 else 0x7F800000)

/-- CMB.INF_EQ answers uiA, which is also uiB. Derived: 40_combiner.md section 2 (CMB.INF_EQ, decision D27). -/
def Obligations.EqualInfinitiesAnswerEitherOperand : Prop :=
  ∀ (s : State) (a b : Word), signOf a = signOf b → expOf a = 255 → expOf b = 255 → fracOf a = 0 → fracOf b = 0 →
    exec (.cmbInfEq a b) s = .next (afterCO s (.early a)) ∧ a = b

/-- CMB.EQ_EXACT answers the exact sum: exponent expA + 1, fraction (fracA + fracB) / 2. Derived: 40_combiner.md section 2 (CMB.EQ_EXACT, constants derived and decision D22). -/
def Obligations.EqualExponentExactSumIsPackedOneBinadeUp : Prop :=
  ∀ (s : State) (a b : Word), signOf a = signOf b → expOf a = expOf b → 1 ≤ expOf a → expOf a ≤ 253 →
    (fracOf a + fracOf b) % 2 = 0 →
    exec (.cmbEqExact a b) s = .next (afterCO s (.early (wordOf (signOf a) (expOf a + 1) ((fracOf a + fracOf b) / 2))))

/-- CMB.EQ_ROUND answers the triple (sign, expA, (2^24 + fracA + fracB) * 64). Derived: 40_combiner.md section 2 (CMB.EQ_ROUND, decision D26). -/
def Obligations.EqualExponentSumGoesToRounding : Prop :=
  ∀ (s : State) (a b : Word), signOf a = signOf b → expOf a = expOf b → 1 ≤ expOf a → expOf a ≤ 254 →
    ((fracOf a + fracOf b) % 2 = 1 ∨ expOf a = 254) →
    exec (.cmbEqRound a b) s =
      .next (afterCO s (.round (signOf a) (expOf a) (BitVec.ofNat 32 ((2 ^ 24 + fracOf a + fracOf b) * 64)))) ∧
    (2 ^ 24 + fracOf a + fracOf b) * 64 < 2 ^ 31

/-- CMB.ALIGN_B_FAR aligns A to B, adds, renormalises. Derived: 40_combiner.md section 4 (AlignSum and CMB.ALIGN_B_FAR, decision D25 and conflict C1). -/
def Obligations.AlignmentWithBFarAnswersTheAlignedSum : Prop :=
  ∀ (s : State) (a b : Word), signOf a = signOf b → expOf a < expOf b → expOf b ≤ 254 →
    let near := if expOf a = 0 then 2 * fracOf a * 64 else (2 ^ 23 + fracOf a) * 64
    let sum := (2 ^ 23 + fracOf b) * 64 + stickyShiftRight near (expOf b - expOf a)
    (sum < 2 ^ 30 → exec (.cmbAlignBFar a b) s =
      .next (afterCO s (.round (signOf a) ((expOf b : Int) - 1) (BitVec.ofNat 32 (2 * sum))))) ∧
    (2 ^ 30 ≤ sum → exec (.cmbAlignBFar a b) s =
      .next (afterCO s (.round (signOf a) (expOf b) (BitVec.ofNat 32 sum)))) ∧
    2 ^ 29 ≤ sum ∧ sum < 2 ^ 31

/-- CMB.ALIGN_A_FAR aligns B to A, adds, renormalises. Derived: 40_combiner.md section 4 (AlignSum and CMB.ALIGN_A_FAR, decision D25 and conflict C1). -/
def Obligations.AlignmentWithAFarAnswersTheAlignedSum : Prop :=
  ∀ (s : State) (a b : Word), signOf a = signOf b → expOf b < expOf a → expOf a ≤ 254 →
    let near := if expOf b = 0 then 2 * fracOf b * 64 else (2 ^ 23 + fracOf b) * 64
    let sum := (2 ^ 23 + fracOf a) * 64 + stickyShiftRight near (expOf a - expOf b)
    (sum < 2 ^ 30 → exec (.cmbAlignAFar a b) s =
      .next (afterCO s (.round (signOf a) ((expOf a : Int) - 1) (BitVec.ofNat 32 (2 * sum))))) ∧
    (2 ^ 30 ≤ sum → exec (.cmbAlignAFar a b) s =
      .next (afterCO s (.round (signOf a) (expOf a) (BitVec.ofNat 32 sum)))) ∧
    2 ^ 29 ≤ sum ∧ sum < 2 ^ 31

/-- Every triple of stage C has 0 <= exp <= 254 and 2^30 <= sig < 2^31. Derived: 40_combiner.md section 5 (range of the output, marked derived there). -/
def Obligations.StageCTriplesLieInTheRounderDomain : Prop :=
  ∀ (a b : Word) (sign : Bool) (exp : Int) (sig : Word), combine a b = .round sign exp sig →
    0 ≤ exp ∧ exp ≤ 254 ∧ 2 ^ 30 ≤ sig.toNat ∧ sig.toNat < 2 ^ 31

/-- Every EARLY word and every triple of stage C has the sign of the operands. Stated: R66. -/
def Obligations.StageCKeepsTheCommonSign : Prop :=
  ∀ a b : Word, signOf a = signOf b →
    (∀ w, combine a b = .early w → signOf w = signOf a) ∧
    (∀ sign exp sig, combine a b = .round sign exp sig → sign = signOf a)

/-- Combine always answers, raises no flag, and makes no NaN or infinity of its own. Stated: R67. -/
def Obligations.StageCNeverFailsAndRaisesNoFlag : Prop :=
  ∀ (s : State) (a b : Word), signOf a = signOf b →
    exec (instrOfClass (classify a b) a b) s = .next (afterCO s (combine a b)) ∧
    ∀ w, combine a b = .early w → isNaN w = false ∧ (isInf w = true → w = a ∨ w = b)

/-- Combine(uiA, uiB) = Combine(uiB, uiA) for operands of one sign that are no NaNs. Derived: 40_combiner.md section 5 (symmetry, marked derived there). -/
def Obligations.StageCIsSymmetricForNonNanOperands : Prop :=
  ∀ a b : Word, signOf a = signOf b →
    (isNaN a = false → isNaN b = false → combine a b = combine b a) ∧
    (isNaN a = true ∨ isNaN b = true → combine a b = .nan ∧ combine b a = .nan)

/-- The rounding increment is half the slice, the full slice or 0, by mode and sign. Derived: 41_rounder_packer.md section 2 (step 1; toward-odd by decision D10). -/
def Obligations.RoundIncrementFollowsTheModeTable : Prop :=
  (∀ sign, roundIncrement .rne sign = 0x40) ∧ (∀ sign, roundIncrement .rmm sign = 0x40) ∧
  roundIncrement .rdn false = 0 ∧ roundIncrement .rdn true = 0x7F ∧
  roundIncrement .rup false = 0x7F ∧ roundIncrement .rup true = 0 ∧
  (∀ sign, roundIncrement .rtz sign = 0) ∧ ∀ sign, roundIncrement .rod sign = 0

/-- RPK.RNE rounds nearest, ties to even; its whole answer in closed form. Derived: 41_rounder_packer.md section 3 (RPK.RNE, marked derived there), 41_rounder_packer.md section 2 (steps 3 to 8). -/
def Obligations.RpkRneRoundsToNearestTiesToEven : Prop :=
  ∀ (s : State) (sign : Bool) (exp : ExpPort) (sig : Word), 2 ^ 30 ≤ sig.toNat → sig.toNat < 2 ^ 31 →
    ∃ r : RR, exec (.rpkRne sign exp sig) s = .next (afterWord s r.word r.raise) ∧
      r = closedAnswer (fun t b => if b < 0x40 then t else if 0x40 < b then t + 1 else if t % 2 = 0 then t else t + 1) (if sign then 0xFF800000 else 0x7F800000)
        s.ctx.tininess sign exp.toInt sig.toNat

/-- RPK.RMM rounds nearest, ties away from zero; its whole answer in closed form. Derived: 41_rounder_packer.md section 3 (RPK.RMM, marked derived there), 41_rounder_packer.md section 2 (steps 3 to 8). -/
def Obligations.RpkRmmRoundsToNearestTiesAway : Prop :=
  ∀ (s : State) (sign : Bool) (exp : ExpPort) (sig : Word), 2 ^ 30 ≤ sig.toNat → sig.toNat < 2 ^ 31 →
    ∃ r : RR, exec (.rpkRmm sign exp sig) s = .next (afterWord s r.word r.raise) ∧
      r = closedAnswer (fun t b => if b < 0x40 then t else t + 1) (if sign then 0xFF800000 else 0x7F800000)
        s.ctx.tininess sign exp.toInt sig.toNat

/-- RPK.RTZ rounds toward zero; its whole answer in closed form. Derived: 41_rounder_packer.md section 3 (RPK.RTZ, marked derived there), 41_rounder_packer.md section 2 (steps 3 to 8). -/
def Obligations.RpkRtzTruncates : Prop :=
  ∀ (s : State) (sign : Bool) (exp : ExpPort) (sig : Word), 2 ^ 30 ≤ sig.toNat → sig.toNat < 2 ^ 31 →
    ∃ r : RR, exec (.rpkRtz sign exp sig) s = .next (afterWord s r.word r.raise) ∧
      r = closedAnswer (fun t _ => t) (if sign then 0xFF7FFFFF else 0x7F7FFFFF)
        s.ctx.tininess sign exp.toInt sig.toNat

/-- RPK.RDN rounds toward negative; its whole answer in closed form. Derived: 41_rounder_packer.md section 3 (RPK.RDN, marked derived there), 41_rounder_packer.md section 2 (steps 3 to 8). -/
def Obligations.RpkRdnRoundsTowardNegative : Prop :=
  ∀ (s : State) (sign : Bool) (exp : ExpPort) (sig : Word), 2 ^ 30 ≤ sig.toNat → sig.toNat < 2 ^ 31 →
    ∃ r : RR, exec (.rpkRdn sign exp sig) s = .next (afterWord s r.word r.raise) ∧
      r = closedAnswer (fun t b => if sign = true ∧ b ≠ 0 then t + 1 else t) (if sign then 0xFF800000 else 0x7F7FFFFF)
        s.ctx.tininess sign exp.toInt sig.toNat

/-- RPK.RUP rounds toward positive; its whole answer in closed form. Derived: 41_rounder_packer.md section 3 (RPK.RUP, marked derived there), 41_rounder_packer.md section 2 (steps 3 to 8). -/
def Obligations.RpkRupRoundsTowardPositive : Prop :=
  ∀ (s : State) (sign : Bool) (exp : ExpPort) (sig : Word), 2 ^ 30 ≤ sig.toNat → sig.toNat < 2 ^ 31 →
    ∃ r : RR, exec (.rpkRup sign exp sig) s = .next (afterWord s r.word r.raise) ∧
      r = closedAnswer (fun t b => if sign = false ∧ b ≠ 0 then t + 1 else t) (if sign then 0xFF7FFFFF else 0x7F800000)
        s.ctx.tininess sign exp.toInt sig.toNat

/-- RPK.ROD rounds toward odd; its whole answer in closed form. Derived: 41_rounder_packer.md section 3 (RPK.ROD, marked derived there), 41_rounder_packer.md section 2 (steps 3 to 8). -/
def Obligations.RpkRodForcesAnOddLowestBit : Prop :=
  ∀ (s : State) (sign : Bool) (exp : ExpPort) (sig : Word), 2 ^ 30 ≤ sig.toNat → sig.toNat < 2 ^ 31 → s.roundOdd = true →
    ∃ r : RR, exec (.rpkRod sign exp sig) s = .next (afterWord s r.word r.raise) ∧
      r = closedAnswer (fun t b => if b = 0 then t else t ||| 1) (if sign then 0xFF7FFFFF else 0x7F7FFFFF)
        s.ctx.tininess sign exp.toInt sig.toNat

/-- Past the range stage R answers infinity or the largest finite value, with OF and NX. Stated: R76. -/
def Obligations.RoundPackOverflowSubstitutesByIncrement : Prop :=
  ∀ (m : RoundingMode) (t : Tininess) (sign : Bool) (exp : Int) (sig : Word), 2 ^ 30 ≤ sig.toNat → sig.toNat < 2 ^ 31 → 0 ≤ exp →
    ((0xFD < exp ∨ (exp = 0xFD ∧ 2 ^ 31 ≤ sig.toNat + roundIncrement m sign)) →
      roundPack m t sign exp sig =
        { word := if roundIncrement m sign = 0 then (if sign then 0xFF7FFFFF else 0x7F7FFFFF)
                  else (if sign then 0xFF800000 else 0x7F800000)
          raise := flagOF ||| flagNX }) ∧
    (¬ (0xFD < exp ∨ (exp = 0xFD ∧ 2 ^ 31 ≤ sig.toNat + roundIncrement m sign)) →
      (roundPack m t sign exp sig).raise.getLsbD 2 = false)

/-- UF is raised exactly for a negative exponent, a tiny result and nonzero shifted round bits. Derived: 41_rounder_packer.md section 2 (step 3, negative exponent; conflict C4). -/
def Obligations.UnderflowIsRaisedWhenTinyAndInexact : Prop :=
  ∀ (m : RoundingMode) (t : Tininess) (sign : Bool) (exp : Int) (sig : Word), 2 ^ 30 ≤ sig.toNat → sig.toNat < 2 ^ 31 →
    ((roundPack m t sign exp sig).raise.getLsbD 1 = true ↔
      exp < 0 ∧ (t = .before ∨ exp < -1 ∨ sig.toNat + roundIncrement m sign < 2 ^ 31) ∧
      stickyShiftRight sig.toNat (-exp).toNat % 128 ≠ 0) ∧
    ((roundPack m t sign exp sig).raise.getLsbD 1 = true → (roundPack m t sign exp sig).raise.getLsbD 0 = true)

/-- Off the overflow path NX is raised exactly when the round bits are nonzero, in every mode. Derived: 41_rounder_packer.md section 2 (step 5, inexact; steps 2 and 3, round bits), 90_conflicts.md (C4: the recomputed round bits). -/
def Obligations.InexactFollowsTheRoundBits : Prop :=
  ∀ (m : RoundingMode) (t : Tininess) (sign : Bool) (exp : Int) (sig : Word), 2 ^ 30 ≤ sig.toNat → sig.toNat < 2 ^ 31 →
    (exp < 0 →
      ((roundPack m t sign exp sig).raise.getLsbD 0 = true ↔ stickyShiftRight sig.toNat (-exp).toNat % 128 ≠ 0)) ∧
    (0 ≤ exp → ¬ (0xFD < exp ∨ (exp = 0xFD ∧ 2 ^ 31 ≤ sig.toNat + roundIncrement m sign)) →
      ((roundPack m t sign exp sig).raise.getLsbD 0 = true ↔ sig.toNat % 128 ≠ 0))

/-- Stage R raises one of {}, {NX}, {UF, NX}, {OF, NX}. Derived: 41_rounder_packer.md section 4 (raised sets, marked derived there). -/
def Obligations.RoundPackRaisesOneOfFourFlagSets : Prop :=
  ∀ (m : RoundingMode) (t : Tininess) (sign : Bool) (exp : Int) (sig : Word),
    (roundPack m t sign exp sig).raise = 0 ∨ (roundPack m t sign exp sig).raise = flagNX ∨
    (roundPack m t sign exp sig).raise = flagUF ||| flagNX ∨ (roundPack m t sign exp sig).raise = flagOF ||| flagNX

/-- With a zero round-bit slice in range, every mode packs the significand unchanged and raises nothing. Derived: 41_rounder_packer.md section 4 (exactness, marked derived there). -/
def Obligations.ExactTriplesAreNotRounded : Prop :=
  ∀ (m : RoundingMode) (t : Tininess) (sign : Bool) (exp : Int) (sig : Word), 2 ^ 30 ≤ sig.toNat → sig.toNat < 2 ^ 31 →
    (0 ≤ exp → exp ≤ 0xFD → sig.toNat % 128 = 0 →
      roundPack m t sign exp sig = { word := wordOf sign exp.toNat (sig.toNat / 128), raise := 0 }) ∧
    (exp < 0 → stickyShiftRight sig.toNat (-exp).toNat % 128 = 0 →
      roundPack m t sign exp sig = { word := wordOf sign 0 (stickyShiftRight sig.toNat (-exp).toNat / 128), raise := 0 })

/-- The tininess mode changes no result word and no flag but UF, and that only for exp < 0. Derived: 10_state.md section 2 (tininess). -/
def Obligations.TininessModeAffectsOnlyTheUnderflowFlag : Prop :=
  ∀ (m : RoundingMode) (sign : Bool) (exp : Int) (sig : Word),
    (roundPack m .before sign exp sig).word = (roundPack m .after sign exp sig).word ∧
    (roundPack m .before sign exp sig).raise ||| flagUF = (roundPack m .after sign exp sig).raise ||| flagUF ∧
    ((roundPack m .after sign exp sig).raise.getLsbD 1 = true → (roundPack m .before sign exp sig).raise.getLsbD 1 = true) ∧
    (0 ≤ exp → roundPack m .before sign exp sig = roundPack m .after sign exp sig)

/-- Stage R is the IEEE-754 binary32 rounding of sig * 2^(exp - 156), with its flags. Derived: 41_rounder_packer.md section 4 (value-level meaning, marked derived there), 95_test_vectors.md section 5 (the reference). -/
def Obligations.RoundPackIsIeeeRoundingOfTheTriple : Prop :=
  ∀ (m : RoundingMode) (t : Tininess) (sign : Bool) (exp : Int) (sig : Word), 2 ^ 30 ≤ sig.toNat → sig.toNat < 2 ^ 31 →
    IeeeRounding m t sign (tripleMagnitude exp sig) (roundPack m t sign exp sig)

/-- ADDMAGS.F32 answers the EARLY word, the NaN of propagateNaN, or what stage R makes of the triple. Stated: R94. -/
def Obligations.AddMagsRunsTheExitOfStageC : Prop :=
  ∀ (s : State) (a b : Word), signOf a = signOf b →
    (∀ w, combine a b = .early w → exec (.addmagsF32 a b) s = .next (afterWord s w 0)) ∧
    (combine a b = .nan → exec (.addmagsF32 a b) s = .next (afterWord s (propagateNaN a b).word (propagateNaN a b).raise)) ∧
    (∀ sign exp sig m, combine a b = .round sign exp sig → modeOfCode s.roundOdd s.ctx.rm = some m →
      exec (.addmagsF32 a b) s = .next (afterWord s (roundPack m s.ctx.tininess sign exp sig).word
        (roundPack m s.ctx.tininess sign exp sig).raise))

/-- Every well-formed instruction answers a next state unless stage R is reached without a legal mode. Derived: 00_scope.md section 1 (the precondition), 41_rounder_packer.md section 4 (never fails), 60_exceptions.md section 2 (no traps). -/
def Obligations.EveryLegalRequestCompletes : Prop :=
  ∀ (i : Instr) (s : State), i.wellFormed = true →
    (i.mode = some .rod → s.roundOdd = true) →
    (∀ a b, i = .addmagsF32 a b →
      (∃ m, modeOfCode s.roundOdd s.ctx.rm = some m) ∨ ∀ sign exp sig, combine a b ≠ .round sign exp sig) →
    ∃ (t : State) (r : Response), exec i s = .next t ∧ t.responses = s.responses ++ [r]

/-- Undefined requests are refused by name (which name, if wrong in two ways: the choice of the model, log entry 15). Derived: 30_encoding.md section 6 (the table of refused inputs), 93_implementation_defined.md part 1 (U4 to U6). -/
def Obligations.UndefinedRequestsAreRefused : Prop :=
  ∀ (s : State) (a b : Word) (c : DispatchClass) (m : RoundingMode) (sign : Bool) (exp : ExpPort) (sig : Word),
    (signOf a ≠ signOf b →
      exec (.addmagsF32 a b) s = .refused .mixedSigns ∧ exec (instrOfClass c a b) s = .refused .mixedSigns) ∧
    (¬ (2 ^ 30 ≤ sig.toNat ∧ sig.toNat < 2 ^ 31) → (m = .rod → s.roundOdd = true) →
      exec (instrOfMode m sign exp sig) s = .refused .unnormalisedSignificand) ∧
    (s.roundOdd = false → exec (.rpkRod sign exp sig) s = .refused .reservedRoundingMode) ∧
    (∀ zs ze zg, signOf a = signOf b → combine a b = .round zs ze zg →
      (s.ctx.rm = 5 ∨ s.ctx.rm = 7 ∨ (s.ctx.rm = 6 ∧ s.roundOdd = false)) →
      exec (.addmagsF32 a b) s = .refused .reservedRoundingMode)

/-- A NaN operand makes the result that of propagateNaN, a NaN, with at most invalid raised. Stated: R101. -/
def Obligations.NanOperandsGoToPropagateNan : Prop :=
  ∀ (s : State) (a b : Word), signOf a = signOf b → (isNaN a = true ∨ isNaN b = true) →
    exec (.addmagsF32 a b) s = .next (afterWord s (propagateNaN a b).word (propagateNaN a b).raise) ∧
    isNaN (propagateNaN a b).word = true ∧
    ((propagateNaN a b).raise = 0 ∨ (propagateNaN a b).raise = flagNV)

/-- The result of ADDMAGS.F32 has the sign of the operands when they are no NaNs. Derived: 42_pipeline.md section 3 (sign preservation, marked derived there). -/
def Obligations.AddMagsPreservesTheSign : Prop :=
  ∀ (s : State) (a b : Word) (m : RoundingMode), signOf a = signOf b → isNaN a = false → isNaN b = false →
    modeOfCode s.roundOdd s.ctx.rm = some m →
    ∃ (w : Word) (f : FlagSet), exec (.addmagsF32 a b) s = .next (afterWord s w f) ∧
      signOf w = signOf a ∧ isNaN w = false

/-- x plus the zero of its own sign is x, with no flag, in every mode and either order. Derived: 42_pipeline.md section 3 (identity, marked derived there; conflict C6). -/
def Obligations.AddingZeroReturnsTheWordUnchanged : Prop :=
  ∀ (s : State) (x : Word) (m : RoundingMode), isNaN x = false → modeOfCode s.roundOdd s.ctx.rm = some m →
    exec (.addmagsF32 x (x &&& 0x80000000)) s = .next (afterWord s x 0) ∧
    exec (.addmagsF32 (x &&& 0x80000000) x) s = .next (afterWord s x 0)

/-- An infinity plus any same-sign operand that is no NaN is that infinity, with no flag. Derived: 42_pipeline.md section 3 (infinity absorption, marked derived there). -/
def Obligations.InfinityAbsorbsEverySameSignOperand : Prop :=
  ∀ (s : State) (x y : Word), isInf x = true → isNaN y = false → signOf x = signOf y →
    exec (.addmagsF32 x y) s = .next (afterWord s x 0) ∧ exec (.addmagsF32 y x) s = .next (afterWord s x 0)

/-- ADDMAGS.F32 never raises UF or DZ and its answer does not depend on the tininess mode. Derived: 42_pipeline.md section 2 (what of stage R the pipeline can reach, marked derived there). -/
def Obligations.AddMagsNeverUnderflows : Prop :=
  ∀ (s t : State) (a b : Word), exec (.addmagsF32 a b) s = .next t →
    t.ctx.flags.getLsbD 1 = s.ctx.flags.getLsbD 1 ∧ t.ctx.flags.getLsbD 3 = s.ctx.flags.getLsbD 3 ∧
    ∀ x : Tininess, exec (.addmagsF32 a b) (writeTininess s x) = .next (writeTininess t x)

/-- ADDMAGS.F32 gives the same outcome for both operand orders when neither is a NaN. Derived: 42_pipeline.md section 3 (commutativity, marked derived there). -/
def Obligations.AddMagsIsCommutativeForNonNanOperands : Prop :=
  ∀ (s : State) (a b : Word), isNaN a = false → isNaN b = false →
    exec (.addmagsF32 a b) s = exec (.addmagsF32 b a) s

/-- A sum whose triple has exponent 254 overflows in every mode to the word of the overflow table. Derived: 42_pipeline.md section 3 (overflow substitution), 41_rounder_packer.md section 2 (step 3, overflow). -/
def Obligations.TopBinadeTriplesOverflowToTheTableWord : Prop :=
  ∀ (s : State) (a b : Word) (m : RoundingMode) (sign : Bool) (sig : Word), signOf a = signOf b →
    modeOfCode s.roundOdd s.ctx.rm = some m → combine a b = .round sign 254 sig →
    exec (.addmagsF32 a b) s = .next (afterWord s (overflowWord m (signOf a)) (flagOF ||| flagNX))

/-- ADDMAGS.F32 is IEEE-754 binary32 addition of finite same-sign operands, flags included. Derived: 42_pipeline.md section 3 (correctness against the arithmetic, marked derived there), 95_test_vectors.md section 5 (the reference). -/
def Obligations.AddMagsIsIeeeAdditionOfSameSignOperands : Prop :=
  ∀ (s : State) (a b : Word) (m : RoundingMode), signOf a = signOf b → isFinite a = true → isFinite b = true →
    modeOfCode s.roundOdd s.ctx.rm = some m →
    ∃ r : RR, exec (.addmagsF32 a b) s = .next (afterWord s r.word r.raise) ∧
      IeeeRounding m s.ctx.tininess (signOf a) (magnitude a + magnitude b) r

/-- A transaction is a function of its operands and the modes: one response, flags ORed, nothing else. Stated: R13. -/
def Obligations.TransactionsDependOnlyOnOperandsAndModes : Prop :=
  ∀ (i : Instr) (s t : State), exec i s = .next t →
    ∃ (r : Response) (f : FlagSet), ∀ u : State,
      u.ctx.rm = s.ctx.rm → u.ctx.tininess = s.ctx.tininess → u.roundOdd = s.roundOdd →
      exec i u = .next
        { ctx := { rm := u.ctx.rm, tininess := u.ctx.tininess, flags := u.ctx.flags ||| f }
          roundOdd := u.roundOdd, program := u.program, vars := u.vars, responses := u.responses ++ [r] }

/-- No instruction changes DZ, and NV changes only for ADDMAGS.F32 with a NaN operand. Stated: R18. -/
def Obligations.DivideByZeroIsUntouchedAndInvalidIsOnlyForNans : Prop :=
  ∀ (i : Instr) (s t : State), exec i s = .next t →
    t.ctx.flags.getLsbD 3 = s.ctx.flags.getLsbD 3 ∧
    (s.ctx.flags.getLsbD 4 = true → t.ctx.flags.getLsbD 4 = true) ∧
    (t.ctx.flags.getLsbD 4 ≠ s.ctx.flags.getLsbD 4 →
      ∃ a b, i = .addmagsF32 a b ∧ (isNaN a = true ∨ isNaN b = true) ∧ (propagateNaN a b).raise = flagNV)

/-- Two transactions give the same words and the same final context in either order. Derived: 20_memory.md section 3 (order of transactions, marked derived there). -/
def Obligations.TransactionsCommuteUpToResponseOrder : Prop :=
  ∀ (i j : Instr) (s s1 s2 : State), exec i s = .next s1 → exec j s1 = .next s2 →
    ∃ (u1 u2 : State) (ri rj : Response), exec j s = .next u1 ∧ exec i u1 = .next u2 ∧ u2.ctx = s2.ctx ∧
      s2.responses = s.responses ++ [ri, rj] ∧ u2.responses = s.responses ++ [rj, ri]

/-- When the next line is a request that decodes to i, the step is exec i. Derived: 20_memory.md section 3 (one transaction is one step), 30_encoding.md sections 6 and 7. -/
def Obligations.StepRunsTheDecodedInstruction : Prop :=
  ∀ (s : State) (r : Request) (rest : List Line), s.program = .request r :: rest →
    (∀ i, decode s.roundOdd s.ctx.rm r = .ok i →
      (∀ t, exec i { s with program := rest } = .next t → step s = .next t) ∧
      (∀ e, exec i { s with program := rest } = .refused e → step s = .refused e)) ∧
    (decode s.roundOdd s.ctx.rm r = .error .mixedSigns → step s = .refused .mixedSigns) ∧
    (decode s.roundOdd s.ctx.rm r = .error .reservedRoundingMode → step s = .refused .reservedRoundingMode) ∧
    (decode s.roundOdd s.ctx.rm r = .error .unnormalisedSignificand → step s = .refused .unnormalisedSignificand)

/-- An ADDMAGS or ROUNDPACK line runs its request and binds its variable to the result word. Derived: 30_encoding.md section 7 (the transcript, decision D19). -/
def Obligations.TranscriptLinesBindTheirResult : Prop :=
  ∀ (s : State) (rest : List Line) (dst : Nat) (w : Word) (f : FlagSet),
    (∀ (a b : Opnd) (x y : Word), s.program = .addMags dst a b :: rest →
      (a = .lit x ∨ ∃ n, a = .var n ∧ getVar n s.vars = some x) → (b = .lit y ∨ ∃ n, b = .var n ∧ getVar n s.vars = some y) →
      signOf x = signOf y →
      exec (.addmagsF32 x y) { s with program := rest } = .next (afterWord { s with program := rest } w f) →
      step s = .next { afterWord { s with program := rest } w f with vars := setVar dst w s.vars }) ∧
    (∀ (m : RoundingMode) (sign : Bool) (exp : ExpPort) (sig : Word), s.program = .roundPack dst sign exp sig :: rest →
      modeOfCode s.roundOdd s.ctx.rm = some m → 2 ^ 30 ≤ sig.toNat → sig.toNat < 2 ^ 31 →
      exec (instrOfMode m sign exp sig) { s with program := rest } = .next (afterWord { s with program := rest } w f) →
      step s = .next { afterWord { s with program := rest } w f with vars := setVar dst w s.vars }) ∧
    getVar dst (setVar dst w s.vars) = some w ∧
    ∀ n, n ≠ dst → getVar n (setVar dst w s.vars) = getVar n s.vars

/-- SETRM, SETTININESS, CLRFLAGS and a context write change their field only; a context read changes none. Derived: 10_state.md section 2 (access rights, layout), 30_encoding.md sections 4 and 7 (codes, transcript). -/
def Obligations.CallerLinesWriteOnlyTheirField : Prop :=
  ∀ (s : State) (rest : List Line),
    (s.program = .setRm .rne :: rest → step s = .next { s with program := rest, ctx := { s.ctx with rm := 0 } }) ∧
    (s.program = .setRm .rtz :: rest → step s = .next { s with program := rest, ctx := { s.ctx with rm := 1 } }) ∧
    (s.program = .setRm .rdn :: rest → step s = .next { s with program := rest, ctx := { s.ctx with rm := 2 } }) ∧
    (s.program = .setRm .rup :: rest → step s = .next { s with program := rest, ctx := { s.ctx with rm := 3 } }) ∧
    (s.program = .setRm .rmm :: rest → step s = .next { s with program := rest, ctx := { s.ctx with rm := 4 } }) ∧
    (s.program = .setRm .rod :: rest → step s = .next { s with program := rest, ctx := { s.ctx with rm := 6 } }) ∧
    (∀ t, s.program = .setTininess t :: rest → step s = .next { s with program := rest, ctx := { s.ctx with tininess := t } }) ∧
    (s.program = .clrFlags :: rest → step s = .next { s with program := rest, ctx := { s.ctx with flags := 0 } }) ∧
    (∀ w, s.program = .writeCtx w :: rest →
      ∃ c : Ctx, fctxOfCtx c = w ∧ step s = .next { s with program := rest, ctx := c }) ∧
    (s.program = .readCtx :: rest →
      step s = .next { s with program := rest, responses := s.responses ++ [.fctx (fctxOfCtx s.ctx)] })

/-- With no line left a step changes nothing (the choice of the model, log entry 6). Derived: 70_reset_and_hazards.md section 5 (end of a run, decision D28). -/
def Obligations.AnEndedTranscriptLeavesTheMachineIdle : Prop :=
  ∀ s : State, s.program = [] → ∀ k, Host.Core.run Sys2Proof.core k s = .next s

/-- A step that changes rm or tininess or clears a flag is a caller write of the context. Derived: 10_state.md section 2 (access rights), 60_exceptions.md section 3. -/
def Obligations.OnlyTheCallerChangesTheModesOrClearsAFlag : Prop :=
  ∀ s t : State, step s = .next t →
    (t.ctx.rm ≠ s.ctx.rm → ∃ rest, (∃ m, s.program = .setRm m :: rest) ∨ ∃ w, s.program = .writeCtx w :: rest) ∧
    (t.ctx.tininess ≠ s.ctx.tininess → ∃ rest, (∃ x, s.program = .setTininess x :: rest) ∨ ∃ w, s.program = .writeCtx w :: rest) ∧
    (s.ctx.flags &&& t.ctx.flags ≠ s.ctx.flags → ∃ rest, s.program = .clrFlags :: rest ∨ ∃ w, s.program = .writeCtx w :: rest) ∧
    t.roundOdd = s.roundOdd

/-- After any run of transactions the flags are the flags before ORed with every raised set. Derived: 20_memory.md section 3 (flags of a sequence), 70_reset_and_hazards.md section 3 (reading the flags). -/
def Obligations.FlagsOfARunAreTheUnionOfItsRaisedSets : Prop :=
  ∀ (k : Nat) (s t : State), (∀ l ∈ s.program.take k, isTransaction l = true) → Host.Core.run Sys2Proof.core k s = .next t →
    t.ctx.rm = s.ctx.rm ∧ t.ctx.tininess = s.ctx.tininess ∧ t.program = s.program.drop k ∧
    ∃ new : List Response, t.responses = s.responses ++ new ∧ new.length = (s.program.take k).length ∧
      t.ctx.flags = new.foldl (fun f r => f ||| raisedBy r) s.ctx.flags

/-- Every step keeps the invariant of the responses and of the transcript variables. Derived: 40_combiner.md section 5, 41_rounder_packer.md section 4, 60_exceptions.md section 1 (the sets that can occur), 00_scope.md section 6 (contract of propagateNaN). -/
def Obligations.EveryStepKeepsWhatLeavesTheBlockLegal : Prop :=
  ∀ s t : State, s.inv → step s = .next t → t.inv

/-- The state after reset meets the invariant and lists nothing; its values are the model's (log entries 2, 3, 12). Derived: 70_reset_and_hazards.md section 1 (reset). -/
def Obligations.ResetMeetsTheInvariant : Prop :=
  State.reset.inv ∧
  State.reset.responses = [] ∧ State.reset.vars = [] ∧ State.reset.program = [] ∧
  State.reset.ctx = { rm := 0, tininess := .after, flags := 0 } ∧ State.reset.roundOdd = true ∧
  ∀ (ctx0 : Ctx) (roundOdd : Bool), ({ State.reset with ctx := ctx0, roundOdd := roundOdd } : State).inv
end

