-- ==== Sys2Proof/Laws/Operands.lean ====
section
/-! SUPPORT. The operands in arithmetic: the fields of a word as quotients and remainders, the packed records taken apart, the
domain of stage R, the codes. -/

namespace Sys2Proof.Machine

open Sys2Proof

theorem signOf_eq (w : Word) : signOf w = w.getLsbD 31 := rfl

theorem expOf_eq (w : Word) : expOf w = w.toNat / 2 ^ 23 % 256 := by
  simp [expOf, decompose, Nat.shiftRight_eq_div_pow]

theorem fracOf_eq (w : Word) : fracOf w = w.toNat % 2 ^ 23 := by
  simp [fracOf, decompose]

theorem expOf_le (w : Word) : expOf w ≤ 255 := by
  rw [expOf_eq]; omega

theorem fracOf_lt (w : Word) : fracOf w < 2 ^ 23 := by
  rw [fracOf_eq]; omega

theorem signOf_toNat (w : Word) : (signOf w).toNat = w.toNat / 2 ^ 31 := by
  have hw := w.isLt
  rw [signOf_eq, BitVec.getLsbD, Nat.testBit_eq_decide_div_mod_eq]
  by_cases h : w.toNat / 2 ^ 31 % 2 = 1
  · rw [decide_eq_true h, Bool.toNat_true]; omega
  · rw [decide_eq_false h, Bool.toNat_false]; omega

theorem sameSign_iff (a b : Word) : sameSign a b = true ↔ signOf a = signOf b := by
  simp [sameSign]

theorem legalSig_iff (sig : Word) : legalSig sig = true ↔ 2 ^ 30 ≤ sig.toNat ∧ sig.toNat < 2 ^ 31 := by
  simp [legalSig]

@[simp] theorem cqA_cqPack (a b : Word) : cqA (cqPack a b) = a := by
  ext i hi
  simp only [cqA, cqPack, BitVec.getElem_extractLsb', BitVec.getLsbD_append]
  have : ¬ 32 + i < 32 := by omega
  simp [this, BitVec.getLsbD_eq_getElem hi]

@[simp] theorem cqB_cqPack (a b : Word) : cqB (cqPack a b) = b := by
  ext i hi
  simp only [cqB, cqPack, BitVec.getElem_extractLsb', BitVec.getLsbD_append]
  simp [hi]

theorem modeOfCode_modeCode (m : RoundingMode) : modeOfCode true (modeCode m) = some m := by
  cases m <;> rfl

theorem modeOfCode_eq_some {roundOdd : Bool} {rm : RmCode} {m : RoundingMode} (h : modeOfCode roundOdd rm = some m) :
    rm = modeCode m ∧ (m = .rod → roundOdd = true) := by
  revert h
  revert roundOdd rm m
  decide

end Sys2Proof.Machine
end

