-- ==== Sys2Proof/Laws/State.lean ====
section
/-! SUPPORT. One lemma per field per update of the state, each true by rfl, and the records the updates agree with. -/

namespace Sys2Proof.Machine

open Sys2Proof

section Emit
variable (s : State) (r : Response)
@[simp] theorem emit_ctx : (s.emit r).ctx = s.ctx := rfl
@[simp] theorem emit_roundOdd : (s.emit r).roundOdd = s.roundOdd := rfl
@[simp] theorem emit_program : (s.emit r).program = s.program := rfl
@[simp] theorem emit_vars : (s.emit r).vars = s.vars := rfl
@[simp] theorem emit_responses : (s.emit r).responses = s.responses ++ [r] := rfl
end Emit

section Respond
variable (s : State) (r : RR)
@[simp] theorem respond_rm : (s.respond r).ctx.rm = s.ctx.rm := rfl
@[simp] theorem respond_tininess : (s.respond r).ctx.tininess = s.ctx.tininess := rfl
@[simp] theorem respond_flags : (s.respond r).ctx.flags = s.ctx.flags ||| r.raise := rfl
@[simp] theorem respond_roundOdd : (s.respond r).roundOdd = s.roundOdd := rfl
@[simp] theorem respond_program : (s.respond r).program = s.program := rfl
@[simp] theorem respond_vars : (s.respond r).vars = s.vars := rfl
@[simp] theorem respond_responses : (s.respond r).responses = s.responses ++ [.rr r] := rfl
end Respond

/-- The two spellings of the state a transaction leaves agree: the model's operation and the statements' record. -/
theorem respond_eq_afterWord (s : State) (r : RR) : s.respond r = afterWord s r.word r.raise := rfl
theorem emit_eq_afterCO (s : State) (c : CO) : s.emit (.co c) = afterCO s c := rfl

section AfterWord
variable (s : State) (w : Word) (f : FlagSet)
@[simp] theorem afterWord_rm : (afterWord s w f).ctx.rm = s.ctx.rm := rfl
@[simp] theorem afterWord_tininess : (afterWord s w f).ctx.tininess = s.ctx.tininess := rfl
@[simp] theorem afterWord_flags : (afterWord s w f).ctx.flags = s.ctx.flags ||| f := rfl
@[simp] theorem afterWord_roundOdd : (afterWord s w f).roundOdd = s.roundOdd := rfl
@[simp] theorem afterWord_program : (afterWord s w f).program = s.program := rfl
@[simp] theorem afterWord_vars : (afterWord s w f).vars = s.vars := rfl
@[simp] theorem afterWord_responses : (afterWord s w f).responses = s.responses ++ [.rr { word := w, raise := f }] := rfl
end AfterWord

section AfterCO
variable (s : State) (c : CO)
@[simp] theorem afterCO_ctx : (afterCO s c).ctx = s.ctx := rfl
@[simp] theorem afterCO_roundOdd : (afterCO s c).roundOdd = s.roundOdd := rfl
@[simp] theorem afterCO_program : (afterCO s c).program = s.program := rfl
@[simp] theorem afterCO_vars : (afterCO s c).vars = s.vars := rfl
@[simp] theorem afterCO_responses : (afterCO s c).responses = s.responses ++ [.co c] := rfl
end AfterCO

section CallerWrites
variable (s : State) (rm : RmCode) (t : Tininess) (f : FlagSet)
@[simp] theorem writeRm_rm : (writeRm s rm).ctx.rm = rm := rfl
@[simp] theorem writeRm_tininess : (writeRm s rm).ctx.tininess = s.ctx.tininess := rfl
@[simp] theorem writeRm_flags : (writeRm s rm).ctx.flags = s.ctx.flags := rfl
@[simp] theorem writeRm_roundOdd : (writeRm s rm).roundOdd = s.roundOdd := rfl
@[simp] theorem writeRm_vars : (writeRm s rm).vars = s.vars := rfl
@[simp] theorem writeRm_responses : (writeRm s rm).responses = s.responses := rfl
@[simp] theorem writeTininess_rm : (writeTininess s t).ctx.rm = s.ctx.rm := rfl
@[simp] theorem writeTininess_tininess : (writeTininess s t).ctx.tininess = t := rfl
@[simp] theorem writeTininess_flags : (writeTininess s t).ctx.flags = s.ctx.flags := rfl
@[simp] theorem writeTininess_roundOdd : (writeTininess s t).roundOdd = s.roundOdd := rfl
@[simp] theorem writeTininess_vars : (writeTininess s t).vars = s.vars := rfl
@[simp] theorem writeTininess_responses : (writeTininess s t).responses = s.responses := rfl
@[simp] theorem writeFlags_rm : (writeFlags s f).ctx.rm = s.ctx.rm := rfl
@[simp] theorem writeFlags_tininess : (writeFlags s f).ctx.tininess = s.ctx.tininess := rfl
@[simp] theorem writeFlags_flags : (writeFlags s f).ctx.flags = f := rfl
@[simp] theorem writeFlags_roundOdd : (writeFlags s f).roundOdd = s.roundOdd := rfl
@[simp] theorem writeFlags_vars : (writeFlags s f).vars = s.vars := rfl
@[simp] theorem writeFlags_responses : (writeFlags s f).responses = s.responses := rfl
end CallerWrites

end Sys2Proof.Machine
end

