-- ==== Sys2Proof/Laws/Ops.lean ====
section
/-! SUPPORT. One lemma for each shared operation that says once everything it can do. -/

namespace Sys2Proof.Machine

open Sys2Proof

/-! ### The primitives -/

theorem pack_lt (sign : Bool) {e f : Nat} (h : e * 2 ^ 23 + f < 2 ^ 31) : pack sign e f < 2 ^ 32 := by
  cases sign <;> simp [pack] <;> omega

theorem packWord_toNat (sign : Bool) {e f : Nat} (h : e * 2 ^ 23 + f < 2 ^ 31) : (packWord sign e f).toNat = pack sign e f := by
  rw [packWord, BitVec.toNat_ofNat, Nat.mod_eq_of_lt (pack_lt sign h)]

/-- The folded bit is the parity of the result whenever a bit was lost, and otherwise changes nothing. -/
theorem stickyShiftRight_cases (v c : Nat) :
    (v % 2 ^ c = 0 ∧ stickyShiftRight v c = v / 2 ^ c) ∨ (v % 2 ^ c ≠ 0 ∧ stickyShiftRight v c = v / 2 ^ c ||| 1) := by
  by_cases h : v % 2 ^ c = 0
  · exact .inl ⟨h, by simp [stickyShiftRight, h, Nat.shiftRight_eq_div_pow]⟩
  · exact .inr ⟨h, by simp [stickyShiftRight, h, Nat.shiftRight_eq_div_pow]⟩

theorem or_one_eq (n : Nat) : n ||| 1 = 2 * (n / 2) + 1 := by
  apply Nat.eq_of_testBit_eq
  intro i
  cases i with
  | zero => simp
  | succ k => simp [Nat.testBit_succ, Nat.mul_add_div, Nat.or_div_two]

/-- A sticky shift by at least one place at most halves a value, and stays nonzero. -/
theorem stickyShiftRight_lt {v c n : Nat} (hc : 1 ≤ c) (hv : v < 2 ^ (n + 2)) : stickyShiftRight v c < 2 ^ (n + 1) := by
  have h2 : 2 ≤ 2 ^ c := by
    calc 2 = 2 ^ 1 := rfl
      _ ≤ 2 ^ c := Nat.pow_le_pow_right (by omega) hc
  have hd : v / 2 ^ c ≤ v / 2 := Nat.div_le_div_left h2 (by omega)
  have hp : 2 ^ (n + 2) = 2 * (2 * 2 ^ n) := by ring
  have hq : 2 ^ (n + 1) = 2 * 2 ^ n := by ring
  rcases stickyShiftRight_cases v c with ⟨-, h⟩ | ⟨-, h⟩
  · omega
  · rw [h, or_one_eq]; omega

theorem stickyShiftRight_zero (v : Nat) : stickyShiftRight v 0 = v := by
  simp [stickyShiftRight, Nat.mod_one]

/-! ### Running a meaning -/

/-- A path of stage C answers a next state only for operands of one sign in its class, and then gives its record and
changes nothing else. -/
theorem runPath_eq_next {c : DispatchClass} {path : Word → Word → CO} {a b : Word} {s t : State}
    (h : runPath c path a b s = .next t) : signOf a = signOf b ∧ inClass c a b = true ∧ t = s.emit (.co (path a b)) := by
  unfold runPath at h
  split at h
  · rename_i hs
    split at h
    · rename_i hc
      injection h with h
      exact ⟨(sameSign_iff a b).mp hs, hc, h.symm⟩
    · cases h
  · cases h

theorem runPath_of_legal {c : DispatchClass} (path : Word → Word → CO) {a b : Word} (s : State)
    (hs : signOf a = signOf b) (hc : inClass c a b = true) : runPath c path a b s = .next (s.emit (.co (path a b))) := by
  simp [runPath, (sameSign_iff a b).mpr hs, hc]

/-- Stage R alone answers a next state only on its domain, and then gives the record of `roundPack` and commits its flags. -/
theorem runRoundPack_eq_next {m : RoundingMode} {sign : Bool} {exp : ExpPort} {sig : Word} {s t : State}
    (h : runRoundPack m sign exp sig s = .next t) :
    legalSig sig = true ∧ t = s.respond (roundPack m s.ctx.tininess sign exp.toInt sig) := by
  unfold runRoundPack at h
  split at h
  · rename_i hl
    injection h with h
    exact ⟨hl, h.symm⟩
  · cases h

theorem runRoundPack_of_legal (m : RoundingMode) (sign : Bool) (exp : ExpPort) {sig : Word} (s : State) (h : legalSig sig = true) :
    runRoundPack m sign exp sig s = .next (s.respond (roundPack m s.ctx.tininess sign exp.toInt sig)) := by
  simp [runRoundPack, h]

/-- The pipeline answers a next state in one of three ways, by the exit of stage C, and always by giving one `RR` record. -/
theorem finishPipeline_eq_next {co : CO} {a b : Word} {s t : State} (h : finishPipeline co a b s = .next t) :
    (∃ w, co = .early w ∧ t = s.respond { word := w, raise := 0 }) ∨
    (co = .nan ∧ t = s.respond (propagateNaN a b)) ∨
    (∃ sign exp sig m, co = .round sign exp sig ∧ s.mode = some m ∧
      t = s.respond (roundPack m s.ctx.tininess sign exp sig)) := by
  cases co with
  | early w => injection h with h; exact .inl ⟨w, rfl, h.symm⟩
  | nan => injection h with h; exact .inr (.inl ⟨rfl, h.symm⟩)
  | round sign exp sig =>
    simp only [finishPipeline] at h
    split at h
    · rename_i m hm
      injection h with h
      exact .inr (.inr ⟨sign, exp, sig, m, rfl, hm, h.symm⟩)
    · cases h

/-- `ADDMAGS.F32` answers a next state only for operands of one sign. -/
theorem execAddmagsF32_eq_next {a b : Word} {s t : State} (h : execAddmagsF32 a b s = .next t) :
    signOf a = signOf b ∧ finishPipeline (combine a b) a b s = .next t := by
  unfold execAddmagsF32 at h
  split at h
  · rename_i hs
    exact ⟨(sameSign_iff a b).mp hs, h⟩
  · cases h

/-! ### Transcript lines -/

theorem bindResult_cases (dst : Option Nat) (s : State) :
    bindResult dst s = s ∨
    ∃ n r, dst = some n ∧ s.responses.getLast? = some (.rr r) ∧ bindResult dst s = { s with vars := setVar n r.word s.vars } := by
  unfold bindResult
  split
  · rename_i n r hr
    exact .inr ⟨n, r, rfl, hr, rfl⟩
  · exact .inl rfl

@[simp] theorem bindResult_ctx (dst : Option Nat) (s : State) : (bindResult dst s).ctx = s.ctx := by
  rcases bindResult_cases dst s with h | ⟨n, r, -, -, h⟩ <;> rw [h]

@[simp] theorem bindResult_roundOdd (dst : Option Nat) (s : State) : (bindResult dst s).roundOdd = s.roundOdd := by
  rcases bindResult_cases dst s with h | ⟨n, r, -, -, h⟩ <;> rw [h]

@[simp] theorem bindResult_program (dst : Option Nat) (s : State) : (bindResult dst s).program = s.program := by
  rcases bindResult_cases dst s with h | ⟨n, r, -, -, h⟩ <;> rw [h]

@[simp] theorem bindResult_responses (dst : Option Nat) (s : State) : (bindResult dst s).responses = s.responses := by
  rcases bindResult_cases dst s with h | ⟨n, r, -, -, h⟩ <;> rw [h]

@[simp] theorem bindResult_none (s : State) : bindResult none s = s := rfl

/-- A request answers a next state only by the instruction it decodes to. -/
theorem runRequest_eq_next {dst : Option Nat} {r : Request} {s t : State} (h : runRequest dst r s = .next t) :
    ∃ i u, decode s.roundOdd s.ctx.rm r = .ok i ∧ exec i s = .next u ∧ t = bindResult dst u := by
  unfold runRequest at h
  split at h
  · cases h
  · rename_i i hi
    split at h
    · rename_i u hu
      injection h with h
      exact ⟨i, u, hi, hu, h.symm⟩
    · cases h
    · cases h

/-- Everything a line can do: a transaction is a request that ran; a caller's act writes or reads the context. -/
theorem runLine_eq_next {l : Line} {s t : State} (h : runLine l s = .next t) :
    (isTransaction l = true ∧ ∃ dst r, runRequest dst r s = .next t) ∨
    (∃ m, l = .setRm m ∧ t = writeRm s (modeCode m)) ∨ (∃ x, l = .setTininess x ∧ t = writeTininess s x) ∨
    (l = .clrFlags ∧ t = writeFlags s 0) ∨ (∃ w, l = .writeCtx w ∧ t = { s with ctx := ctxOfFctx w }) ∨
    (l = .readCtx ∧ t = s.emit (.fctx (fctxOfCtx s.ctx))) := by
  cases l with
  | addMags dst a b =>
    simp only [runLine] at h
    split at h
    · exact .inl ⟨rfl, _, _, h⟩
    · cases h
  | roundPack dst sign exp sig => exact .inl ⟨rfl, _, _, h⟩
  | request r => exact .inl ⟨rfl, _, _, h⟩
  | setRm m => injection h with h; exact .inr (.inl ⟨m, rfl, h.symm⟩)
  | setTininess x => injection h with h; exact .inr (.inr (.inl ⟨x, rfl, h.symm⟩))
  | clrFlags => injection h with h; exact .inr (.inr (.inr (.inl ⟨rfl, h.symm⟩)))
  | writeCtx w => injection h with h; exact .inr (.inr (.inr (.inr (.inl ⟨w, rfl, h.symm⟩))))
  | readCtx => injection h with h; exact .inr (.inr (.inr (.inr (.inr ⟨rfl, h.symm⟩))))

/-- Everything a step can do: nothing when the transcript has ended, else its first line. -/
theorem step_eq_next {s t : State} (h : step s = .next t) :
    (s.program = [] ∧ t = s) ∨ ∃ l rest, s.program = l :: rest ∧ runLine l { s with program := rest } = .next t := by
  unfold step at h
  split at h
  · rename_i hp
    injection h with h
    exact .inl ⟨hp, h.symm⟩
  · rename_i l rest hp
    exact .inr ⟨l, rest, hp, h⟩

/-! ### The canonical form of the transcript variables -/

theorem setVar_keys (n : Nat) (w : Word) (vs : List (Nat × Word)) {p : Nat × Word} (h : p ∈ setVar n w vs) : p.1 = n ∨ p ∈ vs := by
  induction vs with
  | nil => simp [setVar] at h; exact .inl (by rw [h])
  | cons q rest ih =>
    obtain ⟨k, v⟩ := q
    simp only [setVar] at h
    split at h
    · rcases List.mem_cons.mp h with rfl | h
      · exact .inl rfl
      · exact .inr h
    · split at h
      · rcases List.mem_cons.mp h with rfl | h
        · exact .inl rfl
        · exact .inr (List.mem_cons_of_mem _ h)
      · rcases List.mem_cons.mp h with rfl | h
        · exact .inr (List.mem_cons_self ..)
        · exact (ih h).imp id (List.mem_cons_of_mem _)

/-- Binding a variable keeps the rising order. -/
theorem setVar_sorted (n : Nat) (w : Word) (vs : List (Nat × Word)) (h : varsSorted vs = true) : varsSorted (setVar n w vs) = true := by
  induction vs with
  | nil => rfl
  | cons q rest ih =>
    obtain ⟨k, v⟩ := q
    simp only [varsSorted, Bool.and_eq_true, List.all_eq_true, decide_eq_true_eq] at h
    obtain ⟨hk, hrest⟩ := h
    simp only [setVar]
    split
    · rename_i hn
      simp only [varsSorted, Bool.and_eq_true, List.all_eq_true, decide_eq_true_eq, List.mem_cons]
      exact ⟨fun p hp => hp.elim (fun e => by rw [e]; exact hn) (fun hp => lt_trans hn (hk p hp)), hk, hrest⟩
    · split
      · rename_i hne
        simp only [varsSorted, Bool.and_eq_true, List.all_eq_true, decide_eq_true_eq]
        exact ⟨fun p hp => hne ▸ hk p hp, hrest⟩
      · simp only [varsSorted, Bool.and_eq_true, List.all_eq_true, decide_eq_true_eq]
        refine ⟨fun p hp => ?_, ih hrest⟩
        rcases setVar_keys n w rest hp with e | hp
        · rw [e]; omega
        · exact hk p hp

end Sys2Proof.Machine
end

