-- ==== Sys2Proof/Laws/Exec.lean ====
section
/-! SUPPORT. What an instruction, and a run of steps, can do: the inversion lemmas later proofs start from. -/

namespace Sys2Proof.Machine

open Sys2Proof

/-- The path of stage C that a class runs (rules R53 to R64). -/
def pathOf : DispatchClass → Word → Word → CO
  | .subsum => pathSubsum
  | .nanEq => pathNanEq
  | .infEq => pathInfEq
  | .eqExact => pathEqExact
  | .eqRound => pathEqRound
  | .nanFarB => pathNanFarB
  | .infFarB => pathInfFarB
  | .nanFarA => pathNanFarA
  | .infFarA => pathInfFarA
  | .alignBFar => pathAlignBFar
  | .alignAFar => pathAlignAFar

theorem combine_eq_pathOf (a b : Word) : combine a b = pathOf (classify a b) a b := by
  unfold combine
  cases classify a b <;> rfl

/-- The eleven `CMB.*` operations as one. -/
theorem exec_instrOfClass (c : DispatchClass) (a b : Word) (s : State) :
    exec (instrOfClass c a b) s = runPath c (pathOf c) a b s := by
  cases c <;> rfl

/-- The six `RPK.*` operations as one. -/
theorem exec_instrOfMode (m : RoundingMode) (sign : Bool) (exp : ExpPort) (sig : Word) (s : State) :
    exec (instrOfMode m sign exp sig) s =
      if m = .rod ∧ s.roundOdd = false then .refused .reservedRoundingMode else runRoundPack m sign exp sig s := by
  cases m
  case rod => cases h : s.roundOdd <;> simp [instrOfMode, exec, execRpkRod, h]
  all_goals rfl

/-- Every instruction is of one of the three families. -/
theorem instr_cases (i : Instr) :
    (∃ c a b, i = instrOfClass c a b) ∨ (∃ m sign exp sig, i = instrOfMode m sign exp sig) ∨ ∃ a b, i = .addmagsF32 a b := by
  cases i with
  | cmbSubsum a b => exact .inl ⟨.subsum, a, b, rfl⟩
  | cmbNanEq a b => exact .inl ⟨.nanEq, a, b, rfl⟩
  | cmbInfEq a b => exact .inl ⟨.infEq, a, b, rfl⟩
  | cmbEqExact a b => exact .inl ⟨.eqExact, a, b, rfl⟩
  | cmbEqRound a b => exact .inl ⟨.eqRound, a, b, rfl⟩
  | cmbNanFarB a b => exact .inl ⟨.nanFarB, a, b, rfl⟩
  | cmbInfFarB a b => exact .inl ⟨.infFarB, a, b, rfl⟩
  | cmbNanFarA a b => exact .inl ⟨.nanFarA, a, b, rfl⟩
  | cmbInfFarA a b => exact .inl ⟨.infFarA, a, b, rfl⟩
  | cmbAlignBFar a b => exact .inl ⟨.alignBFar, a, b, rfl⟩
  | cmbAlignAFar a b => exact .inl ⟨.alignAFar, a, b, rfl⟩
  | rpkRne sign exp sig => exact .inr (.inl ⟨.rne, sign, exp, sig, rfl⟩)
  | rpkRtz sign exp sig => exact .inr (.inl ⟨.rtz, sign, exp, sig, rfl⟩)
  | rpkRdn sign exp sig => exact .inr (.inl ⟨.rdn, sign, exp, sig, rfl⟩)
  | rpkRup sign exp sig => exact .inr (.inl ⟨.rup, sign, exp, sig, rfl⟩)
  | rpkRmm sign exp sig => exact .inr (.inl ⟨.rmm, sign, exp, sig, rfl⟩)
  | rpkRod sign exp sig => exact .inr (.inl ⟨.rod, sign, exp, sig, rfl⟩)
  | addmagsF32 a b => exact .inr (.inr ⟨a, b, rfl⟩)

/-- Everything an instruction that completes can have done: a `CMB.*` on operands of one sign in its class gives its `CO` record;
an `RPK.*` on a legal significand, its mode existing, gives what `roundPack` makes of it; `ADDMAGS.F32` on operands of one
sign finishes the exit of stage C. -/
theorem exec_eq_next {i : Instr} {s t : State} (h : exec i s = .next t) :
    (∃ c a b, i = instrOfClass c a b ∧ signOf a = signOf b ∧ inClass c a b = true ∧ t = s.emit (.co (pathOf c a b))) ∨
    (∃ m sign exp sig, i = instrOfMode m sign exp sig ∧ (m = .rod → s.roundOdd = true) ∧ legalSig sig = true ∧
      t = s.respond (roundPack m s.ctx.tininess sign exp.toInt sig)) ∨
    (∃ a b, i = .addmagsF32 a b ∧ signOf a = signOf b ∧ finishPipeline (combine a b) a b s = .next t) := by
  rcases instr_cases i with ⟨c, a, b, rfl⟩ | ⟨m, sign, exp, sig, rfl⟩ | ⟨a, b, rfl⟩
  · rw [exec_instrOfClass] at h
    obtain ⟨h1, h2, h3⟩ := runPath_eq_next h
    exact .inl ⟨c, a, b, rfl, h1, h2, h3⟩
  · rw [exec_instrOfMode] at h
    split at h
    · cases h
    · rename_i hm
      obtain ⟨h1, h2⟩ := runRoundPack_eq_next h
      refine .inr (.inl ⟨m, sign, exp, sig, rfl, fun hr => ?_, h1, h2⟩)
      by_contra ho
      exact hm ⟨hr, by simpa using ho⟩
  · obtain ⟨h1, h2⟩ := execAddmagsF32_eq_next h
    exact .inr (.inr ⟨a, b, rfl, h1, h2⟩)

/-! ### Runs -/

theorem run_zero (s : State) : Host.Core.run Sys2Proof.core 0 s = .next s := rfl

theorem run_succ_of_next {s t : State} (h : step s = .next t) (k : Nat) :
    Host.Core.run Sys2Proof.core (k + 1) s = Host.Core.run Sys2Proof.core k t := by
  have hc : Sys2Proof.core.step s = .next t := h
  simp only [Host.Core.run]
  rw [hc]

theorem run_succ_eq_next {k : Nat} {s t : State} (h : Host.Core.run Sys2Proof.core (k + 1) s = .next t) :
    ∃ u, step s = .next u ∧ Host.Core.run Sys2Proof.core k u = .next t := by
  simp only [Host.Core.run] at h
  split at h
  · rename_i u hu
    exact ⟨u, hu, h⟩
  · cases h
  · cases h

end Sys2Proof.Machine
end

