-- ==== Sys2Proof/Laws/PerInstr.lean ====
section
/-! SUPPORT. Families of laws stated per instruction. `EncodedForm`: the opcode table's row of an instruction is coherent (its match
lies within its mask, its mask within its width) and the encoded request fits its width. -/

namespace Sys2Proof.Laws.EncodedForm

open Sys2Proof Sys2Proof.Machine

/-- What `EncodedForm` says of one instruction. -/
def Statement (i : Instr) : Prop :=
  (tableRow i).value &&& (tableRow i).mask = (tableRow i).value ∧ (tableRow i).mask < 2 ^ (tableRow i).width ∧
  (encode i).bits < 2 ^ (encode i).width

theorem cmbSubsum (uiA uiB : Word) : Statement (.cmbSubsum uiA uiB) := ⟨by simp only [tableRow]; decide, by simp [tableRow], (cqPack uiA uiB).isLt⟩
theorem cmbNanEq (uiA uiB : Word) : Statement (.cmbNanEq uiA uiB) := ⟨by simp only [tableRow]; decide, by simp [tableRow], (cqPack uiA uiB).isLt⟩
theorem cmbInfEq (uiA uiB : Word) : Statement (.cmbInfEq uiA uiB) := ⟨by simp only [tableRow]; decide, by simp [tableRow], (cqPack uiA uiB).isLt⟩
theorem cmbEqExact (uiA uiB : Word) : Statement (.cmbEqExact uiA uiB) := ⟨by simp only [tableRow]; decide, by simp [tableRow], (cqPack uiA uiB).isLt⟩
theorem cmbEqRound (uiA uiB : Word) : Statement (.cmbEqRound uiA uiB) := ⟨by simp only [tableRow]; decide, by simp [tableRow], (cqPack uiA uiB).isLt⟩
theorem cmbNanFarB (uiA uiB : Word) : Statement (.cmbNanFarB uiA uiB) := ⟨by simp only [tableRow]; decide, by simp [tableRow], (cqPack uiA uiB).isLt⟩
theorem cmbInfFarB (uiA uiB : Word) : Statement (.cmbInfFarB uiA uiB) := ⟨by simp only [tableRow]; decide, by simp [tableRow], (cqPack uiA uiB).isLt⟩
theorem cmbNanFarA (uiA uiB : Word) : Statement (.cmbNanFarA uiA uiB) := ⟨by simp only [tableRow]; decide, by simp [tableRow], (cqPack uiA uiB).isLt⟩
theorem cmbInfFarA (uiA uiB : Word) : Statement (.cmbInfFarA uiA uiB) := ⟨by simp only [tableRow]; decide, by simp [tableRow], (cqPack uiA uiB).isLt⟩
theorem cmbAlignBFar (uiA uiB : Word) : Statement (.cmbAlignBFar uiA uiB) := ⟨by simp only [tableRow]; decide, by simp [tableRow], (cqPack uiA uiB).isLt⟩
theorem cmbAlignAFar (uiA uiB : Word) : Statement (.cmbAlignAFar uiA uiB) := ⟨by simp only [tableRow]; decide, by simp [tableRow], (cqPack uiA uiB).isLt⟩
theorem rpkRne (sign : Bool) (exp : ExpPort) (sig : Word) : Statement (.rpkRne sign exp sig) :=
  ⟨by simp only [tableRow]; decide, by simp [tableRow], (rqPack sign exp sig).isLt⟩
theorem rpkRtz (sign : Bool) (exp : ExpPort) (sig : Word) : Statement (.rpkRtz sign exp sig) :=
  ⟨by simp only [tableRow]; decide, by simp [tableRow], (rqPack sign exp sig).isLt⟩
theorem rpkRdn (sign : Bool) (exp : ExpPort) (sig : Word) : Statement (.rpkRdn sign exp sig) :=
  ⟨by simp only [tableRow]; decide, by simp [tableRow], (rqPack sign exp sig).isLt⟩
theorem rpkRup (sign : Bool) (exp : ExpPort) (sig : Word) : Statement (.rpkRup sign exp sig) :=
  ⟨by simp only [tableRow]; decide, by simp [tableRow], (rqPack sign exp sig).isLt⟩
theorem rpkRmm (sign : Bool) (exp : ExpPort) (sig : Word) : Statement (.rpkRmm sign exp sig) :=
  ⟨by simp only [tableRow]; decide, by simp [tableRow], (rqPack sign exp sig).isLt⟩
theorem rpkRod (sign : Bool) (exp : ExpPort) (sig : Word) : Statement (.rpkRod sign exp sig) :=
  ⟨by simp only [tableRow]; decide, by simp [tableRow], (rqPack sign exp sig).isLt⟩
theorem addmagsF32 (uiA uiB : Word) : Statement (.addmagsF32 uiA uiB) := ⟨by simp only [tableRow]; decide, by simp [tableRow], (cqPack uiA uiB).isLt⟩

end Sys2Proof.Laws.EncodedForm
end

