-- ==== Sys2Proof/Tests/Slice0.lean ====
section
/-! SUPPORT. The model's own tests. Expected values are the spec's: the worked examples of 40_combiner.md and 41_rounder_packer.md and
the vectors S, VC, VR, VA and programs P of 95_test_vectors.md, whose labels the comments name. The witnesses at the end
show, for each statement with hypotheses, values that meet all of them together. -/

namespace Sys2Proof.Tests

open Sys2Proof Sys2Proof.Machine

/-- A small state: the given context and transcript, `ROUND_ODD` true, nothing bound, nothing answered. -/
def start (rm : RmCode) (t : Tininess) (f : FlagSet) (p : List Line) : State :=
  { ctx := { rm := rm, tininess := t, flags := f }, roundOdd := true, program := p, vars := [], responses := [] }

def nextState : Host.Outcome State Fault Refusal → Option State
  | .next s => some s
  | .fault _ => none
  | .refused _ => none

def refusal : Host.Outcome State Fault Refusal → Option Refusal
  | .next _ => none
  | .fault _ => none
  | .refused r => some r

def answers (o : Host.Outcome State Fault Refusal) : Option (List Response × FlagSet) :=
  (nextState o).map (fun s => (s.responses, s.ctx.flags))

/-! ### WellFormed refuses an ill-formed term, check by check -/

theorem smoke_cmbSubsum : (Instr.cmbSubsum 0x00800000 0x00000001).wellFormed = false := by decide
theorem smoke_cmbNanEq : (Instr.cmbNanEq 0x7F800000 0x7F800000).wellFormed = false := by decide
theorem smoke_cmbInfEq : (Instr.cmbInfEq 0x7F800000 0x7F800001).wellFormed = false := by decide
theorem smoke_cmbEqExact : (Instr.cmbEqExact 0x7F000000 0x7F000000).wellFormed = false := by decide
theorem smoke_cmbEqRound : (Instr.cmbEqRound 0x3F800000 0x3F800000).wellFormed = false := by decide
theorem smoke_cmbNanFarB : (Instr.cmbNanFarB 0x3F800000 0x7F800000).wellFormed = false := by decide
theorem smoke_cmbInfFarB : (Instr.cmbInfFarB 0x3F800000 0x7F800001).wellFormed = false := by decide
theorem smoke_cmbNanFarA : (Instr.cmbNanFarA 0x7F800000 0x3F800000).wellFormed = false := by decide
theorem smoke_cmbInfFarA : (Instr.cmbInfFarA 0x7F800001 0x3F800000).wellFormed = false := by decide
theorem smoke_cmbAlignBFar : (Instr.cmbAlignBFar 0x3F800000 0x3F800000).wellFormed = false := by decide
theorem smoke_cmbAlignAFar : (Instr.cmbAlignAFar 0x3F800000 0x7F800000).wellFormed = false := by decide
theorem smoke_cmbSubsum_signs : (Instr.cmbSubsum 0x80000001 0x00000001).wellFormed = false := by decide
theorem smoke_cmbNanEq_signs : (Instr.cmbNanEq 0xFFC00000 0x7FC00000).wellFormed = false := by decide
theorem smoke_cmbInfEq_signs : (Instr.cmbInfEq 0x7F800000 0xFF800000).wellFormed = false := by decide
theorem smoke_cmbEqExact_signs : (Instr.cmbEqExact 0x3F800000 0xBF800000).wellFormed = false := by decide
theorem smoke_cmbEqRound_signs : (Instr.cmbEqRound 0xBF800001 0x3F800000).wellFormed = false := by decide
theorem smoke_cmbNanFarB_signs : (Instr.cmbNanFarB 0xBF800000 0x7FC00000).wellFormed = false := by decide
theorem smoke_cmbInfFarB_signs : (Instr.cmbInfFarB 0x80000001 0x7F800000).wellFormed = false := by decide
theorem smoke_cmbNanFarA_signs : (Instr.cmbNanFarA 0x7FC00000 0xBF800000).wellFormed = false := by decide
theorem smoke_cmbInfFarA_signs : (Instr.cmbInfFarA 0xFF800000 0x3F800000).wellFormed = false := by decide
theorem smoke_cmbAlignBFar_signs : (Instr.cmbAlignBFar 0xBF000000 0x3F800000).wellFormed = false := by decide
theorem smoke_cmbAlignAFar_signs : (Instr.cmbAlignAFar 0x3F800000 0xBF000000).wellFormed = false := by decide
theorem smoke_addmagsF32_signs : (Instr.addmagsF32 0x3F800000 0xBF800000).wellFormed = false := by decide
theorem smoke_rpkRne : (Instr.rpkRne false 126 0x3FFFFFFF).wellFormed = false ∧ (Instr.rpkRne false 126 0x80000000).wellFormed = false := by decide
theorem smoke_rpkRtz : (Instr.rpkRtz false 126 0x3FFFFFFF).wellFormed = false ∧ (Instr.rpkRtz false 126 0x80000000).wellFormed = false := by decide
theorem smoke_rpkRdn : (Instr.rpkRdn false 126 0x3FFFFFFF).wellFormed = false ∧ (Instr.rpkRdn false 126 0x80000000).wellFormed = false := by decide
theorem smoke_rpkRup : (Instr.rpkRup false 126 0x3FFFFFFF).wellFormed = false ∧ (Instr.rpkRup false 126 0x80000000).wellFormed = false := by decide
theorem smoke_rpkRmm : (Instr.rpkRmm false 126 0x3FFFFFFF).wellFormed = false ∧ (Instr.rpkRmm false 126 0x80000000).wellFormed = false := by decide
theorem smoke_rpkRod : (Instr.rpkRod false 126 0x3FFFFFFF).wellFormed = false ∧ (Instr.rpkRod false 126 0x80000000).wellFormed = false := by decide

/-! ### Decoding: each constructor by a word of the spec (sections 1 to 3 of 95_test_vectors.md) -/

/-- VC2 -/
theorem test_decode_cmbSubsum : decode true 5 (.combine 0x007FFFFF00000001) = .ok (.cmbSubsum 0x007FFFFF 0x00000001) := by decide
/-- VC10 -/
theorem test_decode_cmbNanEq : decode true 5 (.combine 0x7F8000007FFFFFFF) = .ok (.cmbNanEq 0x7F800000 0x7FFFFFFF) := by decide
/-- VC12 -/
theorem test_decode_cmbInfEq : decode true 5 (.combine 0xFF800000FF800000) = .ok (.cmbInfEq 0xFF800000 0xFF800000) := by decide
/-- VC15 -/
theorem test_decode_cmbEqExact : decode true 5 (.combine 0x7E8000007E800000) = .ok (.cmbEqExact 0x7E800000 0x7E800000) := by decide
/-- VC19 -/
theorem test_decode_cmbEqRound : decode true 5 (.combine 0x7F0000007F000000) = .ok (.cmbEqRound 0x7F000000 0x7F000000) := by decide
/-- VC23 -/
theorem test_decode_cmbNanFarB : decode true 5 (.combine 0x80000000FF800001) = .ok (.cmbNanFarB 0x80000000 0xFF800001) := by decide
/-- VC25 -/
theorem test_decode_cmbInfFarB : decode true 5 (.combine 0x80000001FF800000) = .ok (.cmbInfFarB 0x80000001 0xFF800000) := by decide
/-- VC27 -/
theorem test_decode_cmbNanFarA : decode true 5 (.combine 0xFF80000180000000) = .ok (.cmbNanFarA 0xFF800001 0x80000000) := by decide
/-- VC29 -/
theorem test_decode_cmbInfFarA : decode true 5 (.combine 0x7F8000007F7FFFFF) = .ok (.cmbInfFarA 0x7F800000 0x7F7FFFFF) := by decide
/-- VC36 -/
theorem test_decode_cmbAlignBFar : decode true 5 (.combine 0x000000007F7FFFFF) = .ok (.cmbAlignBFar 0x00000000 0x7F7FFFFF) := by decide
/-- VC45 -/
theorem test_decode_cmbAlignAFar : decode true 5 (.combine 0x00800000007FFFFF) = .ok (.cmbAlignAFar 0x00800000 0x007FFFFF) := by decide
/-- S3a -/
theorem test_decode_addmagsF32 : decode false 7 (.addMags 0x7F7FFFFF7F7FFFFF) = .ok (.addmagsF32 0x7F7FFFFF 0x7F7FFFFF) := by decide
/-- VR20 -/
theorem test_decode_rpkRne : decode true 0 (.roundPack 0x100FD7FFFFF81) = .ok (.rpkRne true 253 0x7FFFFF81) := by decide
/-- VR8 -/
theorem test_decode_rpkRtz : decode true 1 (.roundPack 0x1007E40000001) = .ok (.rpkRtz true 126 0x40000001) := by decide
/-- VR26 -/
theorem test_decode_rpkRdn : decode true 2 (.roundPack 0x0FFFF40000000) = .ok (.rpkRdn false 0xFFFF 0x40000000) := by decide
/-- VR44 -/
theorem test_decode_rpkRup : decode true 3 (.roundPack 0x080007FFFFFFF) = .ok (.rpkRup false 0x8000 0x7FFFFFFF) := by decide
/-- VR25 -/
theorem test_decode_rpkRmm : decode true 4 (.roundPack 0x07FFF7FFFFFFF) = .ok (.rpkRmm false 0x7FFF 0x7FFFFFFF) := by decide
/-- VR33 -/
theorem test_decode_rpkRod : decode true 6 (.roundPack 0x0FFF955555555) = .ok (.rpkRod false 0xFFF9 0x55555555) := by decide
/-- R46: a mixed-sign pair, the reserved codes, an unnormalised significand -/
theorem test_decode_rejects :
    decode true 0 (.addMags 0x3F800000BF800000) = .error .mixedSigns ∧ decode true 5 (.roundPack 0x0007E40000000) = .error .reservedRoundingMode ∧
    decode true 7 (.roundPack 0x0007E40000000) = .error .reservedRoundingMode ∧ decode false 6 (.roundPack 0x0007E40000000) = .error .reservedRoundingMode ∧
    decode true 0 (.roundPack 0x0007E3FFFFFFF) = .error .unnormalisedSignificand := by decide
/-- a bare word of the table, by its length (log entry 11) -/
theorem test_decodeTableWord :
    decodeTableWord 64 0x3F8000003F800000 = some (.cmbEqExact 0x3F800000 0x3F800000) ∧
    decodeTableWord 56 0x40000000 = some (.rpkRne false 0 0x40000000) ∧ decodeTableWord 32 0x40000000 = some (.rpkRne false 0 0x40000000) ∧
    decodeTableWord 32 0x7FC00000 = some (.cmbNanFarB 0 0x7FC00000) ∧ decodeTableWord 64 0x3F800000BF800000 = none := by decide

/-! ### Each instruction on the spec's vectors -/

/-- VC2: the carry makes the smallest normal -/
theorem test_cmbSubsum_carry : answers (exec (.cmbSubsum 0x007FFFFF 0x00000001) (start 5 .before 0x1F [])) = some ([.co (.early 0x00800000)], 0x1F) := by decide
/-- VC3 -/
theorem test_cmbSubsum_negative : answers (exec (.cmbSubsum 0x807FFFFF 0x807FFFFF) (start 5 .before 0x1F [])) = some ([.co (.early 0x80FFFFFE)], 0x1F) := by decide
/-- VC9 -/
theorem test_cmbNanEq : answers (exec (.cmbNanEq 0x7F800001 0x7F800000) (start 5 .before 0x1F [])) = some ([.co (.nan)], 0x1F) := by decide
/-- VC12 -/
theorem test_cmbInfEq : answers (exec (.cmbInfEq 0xFF800000 0xFF800000) (start 5 .before 0x1F [])) = some ([.co (.early 0xFF800000)], 0x1F) := by decide
/-- VC14 -/
theorem test_cmbEqExact : answers (exec (.cmbEqExact 0x3F800001 0x3F800001) (start 5 .before 0x1F [])) = some ([.co (.early 0x40000001)], 0x1F) := by decide
/-- VC15: the last exact exponent -/
theorem test_cmbEqExact_top : answers (exec (.cmbEqExact 0x7E800000 0x7E800000) (start 5 .before 0x1F [])) = some ([.co (.early 0x7F000000)], 0x1F) := by decide
/-- VC21 -/
theorem test_cmbEqRound : answers (exec (.cmbEqRound 0x40490FDB 0x402DF854) (start 5 .before 0x1F [])) = some ([.co (.round false 128 0x5DC20BC0)], 0x1F) := by decide
/-- VC19 -/
theorem test_cmbEqRound_top : answers (exec (.cmbEqRound 0x7F000000 0x7F000000) (start 5 .before 0x1F [])) = some ([.co (.round false 254 0x40000000)], 0x1F) := by decide
/-- VC23 -/
theorem test_cmbNanFarB : answers (exec (.cmbNanFarB 0x80000000 0xFF800001) (start 5 .before 0x1F [])) = some ([.co (.nan)], 0x1F) := by decide
/-- VC25 -/
theorem test_cmbInfFarB : answers (exec (.cmbInfFarB 0x80000001 0xFF800000) (start 5 .before 0x1F [])) = some ([.co (.early 0xFF800000)], 0x1F) := by decide
/-- VC26 -/
theorem test_cmbNanFarA : answers (exec (.cmbNanFarA 0x7FC00000 0x3F800000) (start 5 .before 0x1F [])) = some ([.co (.nan)], 0x1F) := by decide
/-- VC29 -/
theorem test_cmbInfFarA : answers (exec (.cmbInfFarA 0x7F800000 0x7F7FFFFF) (start 5 .before 0x1F [])) = some ([.co (.early 0x7F800000)], 0x1F) := by decide
/-- VC34 -/
theorem test_cmbAlignBFar : answers (exec (.cmbAlignBFar 0x3DCCCCCD 0x3E4CCCCD) (start 5 .before 0x1F [])) = some ([.co (.round false 124 0x4CCCCCE0)], 0x1F) := by decide
/-- VC33: all shifted out, sticky -/
theorem test_cmbAlignBFar_sticky : answers (exec (.cmbAlignBFar 0x00000001 0x3F800000) (start 5 .before 0x1F [])) = some ([.co (.round false 126 0x40000002)], 0x1F) := by decide
/-- VC43: the near subnormal is doubled -/
theorem test_cmbAlignAFar_doubled : answers (exec (.cmbAlignAFar 0x01000000 0x00000001) (start 5 .before 0x1F [])) = some ([.co (.round false 1 0x40000040)], 0x1F) := by decide
/-- VC51: carry at the top -/
theorem test_cmbAlignAFar_carry : answers (exec (.cmbAlignAFar 0x7F400000 0x7EC00000) (start 5 .before 0x1F [])) = some ([.co (.round false 254 0x48000000)], 0x1F) := by decide
/-- VR2 -/
theorem test_rpkRne_tie_even : answers (exec (.rpkRne false 126 0x40000040) (start 0 .after 0x08 [])) = some ([.rr ⟨0x3F800000, 1⟩], 0x08 ||| 1) := by decide
/-- VR28b -/
theorem test_rpkRne_tiny_before : answers (exec (.rpkRne false 0xFFFF 0x7FFFFFC0) (start 0 .before 0x08 [])) = some ([.rr ⟨0x00800000, 3⟩], 0x08 ||| 3) := by decide
/-- VR21 -/
theorem test_rpkRtz_overflow : answers (exec (.rpkRtz false 254 0x40000000) (start 1 .after 0x08 [])) = some ([.rr ⟨0x7F7FFFFF, 5⟩], 0x08 ||| 5) := by decide
/-- VR18 -/
theorem test_rpkRtz_truncates : answers (exec (.rpkRtz false 253 0x7FFFFFC0) (start 1 .after 0x08 [])) = some ([.rr ⟨0x7F7FFFFF, 1⟩], 0x08 ||| 1) := by decide
/-- VR30a -/
theorem test_rpkRdn_not_tiny : answers (exec (.rpkRdn true 0xFFFF 0x7FFFFF81) (start 2 .after 0x08 [])) = some ([.rr ⟨0x80800000, 1⟩], 0x08 ||| 1) := by decide
/-- VR43 -/
theorem test_rpkRdn_smallest : answers (exec (.rpkRdn true 0xFF38 0x40000000) (start 2 .after 0x08 [])) = some ([.rr ⟨0x80000001, 3⟩], 0x08 ||| 3) := by decide
/-- VR19 -/
theorem test_rpkRup_overflow : answers (exec (.rpkRup false 253 0x7FFFFF81) (start 3 .after 0x08 [])) = some ([.rr ⟨0x7F800000, 5⟩], 0x08 ||| 5) := by decide
/-- VR8 -/
theorem test_rpkRup_negative : answers (exec (.rpkRup true 126 0x40000001) (start 3 .after 0x08 [])) = some ([.rr ⟨0xBF800000, 1⟩], 0x08 ||| 1) := by decide
/-- VR2 -/
theorem test_rpkRmm_tie_away : answers (exec (.rpkRmm false 126 0x40000040) (start 4 .after 0x08 [])) = some ([.rr ⟨0x3F800001, 1⟩], 0x08 ||| 1) := by decide
/-- VR36 -/
theorem test_rpkRmm_smallest : answers (exec (.rpkRmm false 0xFFE8 0x40000000) (start 4 .after 0x08 [])) = some ([.rr ⟨0x00000001, 3⟩], 0x08 ||| 3) := by decide
/-- VR3 -/
theorem test_rpkRod_already_odd : answers (exec (.rpkRod false 126 0x400000C0) (start 6 .after 0x08 [])) = some ([.rr ⟨0x3F800001, 1⟩], 0x08 ||| 1) := by decide
/-- VR22 -/
theorem test_rpkRod_overflow : answers (exec (.rpkRod true 254 0x40000000) (start 6 .after 0x08 [])) = some ([.rr ⟨0xFF7FFFFF, 5⟩], 0x08 ||| 5) := by decide
/-- VA9 (0.1 + 0.2 under RUP) -/
theorem test_addmagsF32_rounds : answers (exec (.addmagsF32 0x3DCCCCCD 0x3E4CCCCD) (start 3 .after 0 [])) = some ([.rr ⟨0x3E99999A, 1⟩], 1) := by decide
/-- R46: a reserved rm is harmless to an EARLY exit and refused on a ROUND exit -/
theorem test_addmagsF32_reserved_mode : answers (exec (.addmagsF32 0x00000001 0x00000001) (start 5 .after 0 [])) = some ([.rr ⟨0x00000002, 0⟩], 0) ∧
    refusal (exec (.addmagsF32 0x3F800000 0x33800000) (start 5 .after 0 [])) = some .reservedRoundingMode := by decide

/-! ### Steps -/

/-- P1, second line: the operand t0 and the binding of t1 -/
theorem test_step_addmags_binds : (nextState (step ⟨⟨0, .after, 0⟩, true, [.addMags 1 (.var 0) (.lit 0x33800000)], [(0, 0x40000000)], []⟩)).map (fun s => (s.vars, s.ctx.flags, s.program)) =
    some ([(0, 0x40000000), (1, 0x40000000)], 1, []) := by decide
/-- P6, second line: under BEFORE -/
theorem test_step_roundpack_line : (nextState (step (start 0 .before 0 [.roundPack 0 false 0xFFFF 0x7FFFFFC0]))).map (fun s => (s.vars, s.ctx.flags)) = some ([(0, 0x00800000)], 3) := by decide
/-- P2: SETRM RTZ makes FCTX 0x120 -/
theorem test_step_setrm : (nextState (step (start 0 .after 0 [.setRm .rtz]))).map (fun s => fctxOfCtx s.ctx) = some 0x120 := by decide
/-- P3 starts from FCTX 0x068 -/
theorem test_step_write_then_dz : (nextState (step (start 0 .after 0 [.writeCtx 0x068]))).map (·.ctx) = some ⟨3, .before, 0x08⟩ := by decide
/-- a run that has ended -/
theorem test_step_idle : nextState (step State.reset) = some State.reset := by decide
/-- the request of S1 is the next line -/
theorem test_withFetchWord : answers (step (State.reset.withFetchWord 64 0x3F8000003F800000)) = some ([.co (.early 0x40000000)], 0) := by decide
/-- R47: a variable bound by no earlier line -/
theorem test_unbound : refusal (step (start 0 .after 0 [.addMags 0 (.var 7) (.lit 0)])) = some .unboundVariable := by decide

/-! ### The reference of the value-level statements on three numbers

1.0 + 2^-24 under RNE is a tie to 1.0 (VA14); magnitudes by rule R33. -/

theorem test_magnitude : magnitude 0x3F800000 = 1 ∧ magnitude 0x40490FDB = 13176795 / 4194304 := by
  have h1 : expOf 0x3F800000 = 127 ∧ fracOf 0x3F800000 = 0 := by decide
  have h2 : expOf 0x40490FDB = 128 ∧ fracOf 0x40490FDB = 4788187 := by decide
  constructor
  · simp only [magnitude, h1.1, h1.2]; norm_num
  · simp only [magnitude, h2.1, h2.2]; norm_num

theorem test_tripleMagnitude : tripleMagnitude 126 0x40000000 = 1 := by
  have h : (0x40000000 : Word).toNat = 1073741824 := by decide
  simp only [tripleMagnitude, h]; norm_num

/-! ### Witnesses: values that meet the hypotheses of each statement, clause by clause -/

theorem witness_PackAddsTheFieldsAndCarriesIntoTheExponent : (2 ^ 23 - 1 < 2 ^ 23 ∧ 255 ≤ 255) ∧ (2 ^ 23 ≤ 2 ^ 23 ∧ 2 ^ 23 < 2 ^ 24 ∧ 254 ≤ 254) ∧
    (2 ^ 24 = 2 ^ 24 ∧ 253 ≤ 253) := by decide
theorem witness_StickyShiftKeepsAnyDiscardedOne : (5 : Nat) < 2 ^ 3 ∧ (2 ^ 31 - 1 < 2 ^ 31 ∧ 31 ≤ 31) := by decide
theorem witness_DispatchClassesPartitionAllOperandPairs : inClass .eqRound 0x7F000000 0x7F000000 = true ∧ inClass .eqExact 0x7E800000 0x7E800000 = true := by decide
theorem witness_DecodeOfEncodeIsTheInstruction : (Instr.rpkRod true 0x8000 0x7FFFFFFF).wellFormed = true ∧ (∀ m, (Instr.rpkRod true 0x8000 0x7FFFFFFF).mode = some m → modeOfCode true 6 = some m) := by
  constructor
  · decide
  · intro m h; simpa [Instr.mode, modeOfCode] using h
theorem witness_EncodeOfDecodeIsTheRequest : decode true 6 (.roundPack 0x0FFF955555555) = .ok (.rpkRod false 0xFFF9 0x55555555) := by decide
theorem witness_DecoderRejectsExactlyTheUndefinedRequests : (0x3F8000003F800000 : CqWord).getLsbD 63 = (0x3F8000003F800000 : CqWord).getLsbD 31 ∧
    (2 ^ 30 ≤ (0x0007E40000000 : RqWord).toNat % 2 ^ 32 ∧ (0x0007E40000000 : RqWord).toNat % 2 ^ 32 < 2 ^ 31) ∧
    ¬ ((6 : RmCode) = 5 ∨ (6 : RmCode) = 7 ∨ ((6 : RmCode) = 6 ∧ true = false)) := by decide
theorem witness_EncodedRequestMatchesItsTableRow : (Instr.cmbInfEq 0xFF800000 0xFF800000).wellFormed = true := by decide
theorem witness_SubsumAnswersTheRawWordSum : signOf 0x807FFFFF = signOf 0x807FFFFF ∧ expOf 0x807FFFFF = 0 ∧ expOf 0x807FFFFF = 0 := by decide
theorem witness_NanClassesAnswerADelegation : signOf 0x7F800001 = signOf 0x7F800000 ∧ (expOf 0x7F800001 = 255 ∧ expOf 0x7F800000 = 255 ∧ (fracOf 0x7F800001 ≠ 0 ∨ fracOf 0x7F800000 ≠ 0)) ∧
    signOf 0x7F7FFFFF = signOf 0x7F800001 ∧ (expOf 0x7F7FFFFF < 255 ∧ expOf 0x7F800001 = 255 ∧ fracOf 0x7F800001 ≠ 0) := by decide
theorem witness_InfinityPlusFiniteAnswersTheSignedInfinity : signOf 0xFF7FFFFF = signOf 0xFF800000 ∧ expOf 0xFF7FFFFF < 255 ∧ expOf 0xFF800000 = 255 ∧ fracOf 0xFF800000 = 0 ∧
    signOf 0x7F800000 = signOf 0x7F7FFFFF ∧ expOf 0x7F7FFFFF < 255 ∧ expOf 0x7F800000 = 255 ∧ fracOf 0x7F800000 = 0 := by decide
theorem witness_EqualInfinitiesAnswerEitherOperand : signOf 0xFF800000 = signOf 0xFF800000 ∧ expOf 0xFF800000 = 255 ∧ fracOf 0xFF800000 = 0 := by decide
theorem witness_EqualExponentExactSumIsPackedOneBinadeUp : signOf 0x7EFFFFFF = signOf 0x7E800001 ∧ expOf 0x7EFFFFFF = expOf 0x7E800001 ∧ 1 ≤ expOf 0x7EFFFFFF ∧ expOf 0x7EFFFFFF ≤ 253 ∧
    (fracOf 0x7EFFFFFF + fracOf 0x7E800001) % 2 = 0 := by decide
theorem witness_EqualExponentSumGoesToRounding : (signOf 0x00800001 = signOf 0x00800000 ∧ expOf 0x00800001 = expOf 0x00800000 ∧ 1 ≤ expOf 0x00800001 ∧ expOf 0x00800001 ≤ 254 ∧
    (fracOf 0x00800001 + fracOf 0x00800000) % 2 = 1) ∧ (expOf 0x7F000000 = 254) := by decide
theorem witness_AlignmentWithBFarAnswersTheAlignedSum : signOf 0x007FFFFF = signOf 0x00800000 ∧ expOf 0x007FFFFF < expOf 0x00800000 ∧ expOf 0x00800000 ≤ 254 ∧
    (2 ^ 23 + fracOf 0x00800000) * 64 + stickyShiftRight (2 * fracOf 0x007FFFFF * 64) (expOf 0x00800000 - expOf 0x007FFFFF) < 2 ^ 30 ∧ expOf 0x007FFFFF = 0 ∧
    signOf 0x7EC00000 = signOf 0x7F400000 ∧ expOf 0x7EC00000 < expOf 0x7F400000 ∧ expOf 0x7F400000 ≤ 254 ∧ expOf 0x7EC00000 ≠ 0 ∧
    2 ^ 30 ≤ (2 ^ 23 + fracOf 0x7F400000) * 64 + stickyShiftRight ((2 ^ 23 + fracOf 0x7EC00000) * 64) (expOf 0x7F400000 - expOf 0x7EC00000) := by decide
theorem witness_AlignmentWithAFarAnswersTheAlignedSum : signOf 0x00800000 = signOf 0x007FFFFF ∧ expOf 0x007FFFFF < expOf 0x00800000 ∧ expOf 0x00800000 ≤ 254 ∧
    (2 ^ 23 + fracOf 0x00800000) * 64 + stickyShiftRight (2 * fracOf 0x007FFFFF * 64) (expOf 0x00800000 - expOf 0x007FFFFF) < 2 ^ 30 ∧ expOf 0x007FFFFF = 0 ∧
    signOf 0x7F400000 = signOf 0x7EC00000 ∧ expOf 0x7EC00000 < expOf 0x7F400000 ∧ expOf 0x7F400000 ≤ 254 ∧ expOf 0x7EC00000 ≠ 0 ∧
    2 ^ 30 ≤ (2 ^ 23 + fracOf 0x7F400000) * 64 + stickyShiftRight ((2 ^ 23 + fracOf 0x7EC00000) * 64) (expOf 0x7F400000 - expOf 0x7EC00000) := by decide
theorem witness_StageCTriplesLieInTheRounderDomain : combine 0x7F400000 0x7EC00000 = .round false 254 0x48000000 := by decide
theorem witness_StageCKeepsTheCommonSign : signOf 0xBF800000 = signOf 0xB3800000 ∧ combine 0xBF800000 0xB3800000 = .round true 126 0x40000040 ∧
    signOf 0xFF800000 = signOf 0x80000000 ∧ combine 0xFF800000 0x80000000 = .early 0xFF800000 := by decide
theorem witness_StageCNeverFailsAndRaisesNoFlag : signOf 0xFF800000 = signOf 0x80000000 ∧ combine 0xFF800000 0x80000000 = .early 0xFF800000 ∧ isInf 0xFF800000 = true := by decide
theorem witness_StageCIsSymmetricForNonNanOperands : signOf 0x3F000000 = signOf 0x3F800000 ∧ isNaN 0x3F000000 = false ∧ isNaN 0x3F800000 = false ∧
    signOf 0x3F000000 = signOf 0x7FC00000 ∧ isNaN 0x7FC00000 = true := by decide
theorem witness_LegalSignificand : (2 ^ 30 ≤ (0x40000000 : Word).toNat ∧ (0x40000000 : Word).toNat < 2 ^ 31) ∧ (2 ^ 30 ≤ (0x7FFFFFFF : Word).toNat ∧ (0x7FFFFFFF : Word).toNat < 2 ^ 31) ∧
    State.reset.roundOdd = true := by decide
theorem witness_RoundPackOverflowSubstitutesByIncrement : ((0 : Int) ≤ 0xFD ∧ (0xFD : Int) = 0xFD ∧ 2 ^ 31 ≤ (0x7FFFFFC0 : Word).toNat + roundIncrement .rne false) ∧
    ¬ ((0xFD : Int) < 0xFD ∨ ((0xFD : Int) = 0xFD ∧ 2 ^ 31 ≤ (0x7FFFFFBF : Word).toNat + roundIncrement .rne false)) ∧ (0xFD : Int) < 0xFE := by decide
theorem witness_InexactFollowsTheRoundBits : (-1 : Int) < 0 ∧ (0 : Int) ≤ 0 ∧ ¬ ((0xFD : Int) < 0 ∨ ((0 : Int) = 0xFD ∧ 2 ^ 31 ≤ (0x40000000 : Word).toNat + roundIncrement .rne false)) := by decide
theorem witness_UnderflowIsRaisedWhenTinyAndInexact : (roundPack .rne .before false (-1) 0x7FFFFFC0).raise.getLsbD 1 = true := by decide
theorem witness_ExactTriplesAreNotRounded : ((0 : Int) ≤ 0xFD ∧ (0xFD : Int) ≤ 0xFD ∧ (0x7FFFFF80 : Word).toNat % 128 = 0) ∧
    ((-23 : Int) < 0 ∧ stickyShiftRight (0x40000000 : Word).toNat (-(-23) : Int).toNat % 128 = 0) := by decide
theorem witness_TininessModeAffectsOnlyTheUnderflowFlag : (roundPack .rdn .after true (-1) 0x7FFFFF80).raise.getLsbD 1 = true ∧ (0 : Int) ≤ 0 := by decide
theorem witness_AddMagsRunsTheExitOfStageC : signOf 0x00000001 = signOf 0x00000001 ∧ combine 0x00000001 0x00000001 = .early 0x00000002 ∧ combine 0x7F800001 0x7F800000 = .nan ∧
    combine 0x3F800000 0x33800000 = .round false 126 0x40000040 ∧ modeOfCode State.reset.roundOdd State.reset.ctx.rm = some .rne := by decide
theorem witness_EveryLegalRequestCompletes : (Instr.addmagsF32 0x3F800000 0x33800000).wellFormed = true ∧ ((Instr.addmagsF32 0x3F800000 0x33800000).mode = some .rod → State.reset.roundOdd = true) ∧
    (∃ m, modeOfCode State.reset.roundOdd State.reset.ctx.rm = some m) := ⟨by decide, fun _ => rfl, .rne, rfl⟩
theorem witness_UndefinedRequestsAreRefused : signOf 0x3F800000 ≠ signOf 0xBF800000 ∧ ¬ (2 ^ 30 ≤ (0x3FFFFFFF : Word).toNat ∧ (0x3FFFFFFF : Word).toNat < 2 ^ 31) ∧ State.reset.roundOdd = true ∧
    { State.reset with roundOdd := false }.roundOdd = false ∧ signOf 0x3F800000 = signOf 0x33800000 ∧
    combine 0x3F800000 0x33800000 = .round false 126 0x40000040 ∧ (start 5 .after 0 []).ctx.rm = 5 := by decide
theorem witness_NanOperandsGoToPropagateNan : signOf 0x3F800000 = signOf 0x7FC00000 ∧ (isNaN 0x3F800000 = true ∨ isNaN 0x7FC00000 = true) := by decide
theorem witness_AddMagsPreservesTheSign : signOf 0xFF7FFFFF = signOf 0xFF7FFFFF ∧ isNaN 0xFF7FFFFF = false ∧ modeOfCode State.reset.roundOdd State.reset.ctx.rm = some .rne := by decide
theorem witness_AddingZeroReturnsTheWordUnchanged : isNaN 0xFF800000 = false ∧ modeOfCode State.reset.roundOdd State.reset.ctx.rm = some .rne := by decide
theorem witness_InfinityAbsorbsEverySameSignOperand : isInf 0xFF800000 = true ∧ isNaN 0x80000000 = false ∧ signOf 0xFF800000 = signOf 0x80000000 := by decide
theorem witness_AddMagsNeverUnderflows : ∃ t, exec (.addmagsF32 0x00800000 0x00000001) State.reset = .next t := ⟨_, rfl⟩
theorem witness_AddMagsIsCommutativeForNonNanOperands : isNaN 0x3F800000 = false ∧ isNaN 0x33800000 = false := by decide
theorem witness_TopBinadeTriplesOverflowToTheTableWord : signOf 0x7F000000 = signOf 0x7F000000 ∧ modeOfCode State.reset.roundOdd State.reset.ctx.rm = some .rne ∧
    combine 0x7F000000 0x7F000000 = .round false 254 0x40000000 := by decide
theorem witness_AddMagsIsIeeeAdditionOfSameSignOperands : signOf 0x7F7FFFFF = signOf 0x00000001 ∧ isFinite 0x7F7FFFFF = true ∧ isFinite 0x00000001 = true ∧
    modeOfCode State.reset.roundOdd State.reset.ctx.rm = some .rne := by decide
theorem witness_TransactionsDependOnlyOnOperandsAndModes : ∃ t, exec (.addmagsF32 0x3F800000 0x33800000) State.reset = .next t := ⟨_, rfl⟩
theorem witness_DivideByZeroIsUntouchedAndInvalidIsOnlyForNans : ∃ t, exec (.addmagsF32 0x7F800001 0x3F800000) (start 0 .after 0x10 []) = .next t := ⟨_, rfl⟩
theorem witness_TransactionsCommuteUpToResponseOrder : ∃ t u, exec (.rpkRne false 126 0x40000040) State.reset = .next t ∧ exec (.cmbSubsum 0 0) t = .next u := ⟨_, _, rfl, rfl⟩
theorem witness_StepRunsTheDecodedInstruction : ∃ t, decode State.reset.roundOdd State.reset.ctx.rm (.addMags 0x3F80000033800000) = .ok (.addmagsF32 0x3F800000 0x33800000) ∧
    exec (.addmagsF32 0x3F800000 0x33800000) { State.reset with program := [] } = .next t := ⟨_, by decide, rfl⟩
theorem witness_StepRunsTheDecodedInstruction_refusals : decode false 6 (.addMags 0x3F800000BF800000) = .error .mixedSigns ∧ decode false 6 (.roundPack 0x0007E40000000) = .error .reservedRoundingMode ∧
    decode false 6 (.roundPack 0x0007E00000000) = .error .unnormalisedSignificand ∧
    refusal (exec (.rpkRod false 126 0x40000000) ⟨⟨6, .after, 0⟩, false, [], [], []⟩) = some .reservedRoundingMode := by decide
theorem witness_TranscriptLinesBindTheirResult_addmags : let s : State := ⟨⟨0, .after, 0⟩, true, [], [(0, 0x3F800000)], []⟩
    getVar 0 s.vars = some 0x3F800000 ∧ signOf 0x3F800000 = signOf 0x33800000 ∧
    exec (.addmagsF32 0x3F800000 0x33800000) s = .next (afterWord s 0x3F800000 1) := ⟨by decide, by decide, rfl⟩
theorem witness_TranscriptLinesBindTheirResult_roundpack : modeOfCode State.reset.roundOdd State.reset.ctx.rm = some .rne ∧ 2 ^ 30 ≤ (0x40000040 : Word).toNat ∧ (0x40000040 : Word).toNat < 2 ^ 31 ∧
    exec (instrOfMode .rne false 126 0x40000040) State.reset = .next (afterWord State.reset 0x3F800000 1) ∧ (1 : Nat) ≠ 0 := ⟨by decide, by decide, by decide, rfl, by decide⟩
theorem witness_CallerLinesWriteOnlyTheirField : (start 0 .after 0 [.setRm .rod]).program = .setRm .rod :: [] ∧ (start 0 .after 0 [.writeCtx 0x1FF]).program = .writeCtx 0x1FF :: [] ∧
    (start 0 .after 0 [.clrFlags, .readCtx]).program = .clrFlags :: [.readCtx] := by decide
theorem witness_AnEndedTranscriptLeavesTheMachineIdle : State.reset.program = [] := by decide
theorem witness_OnlyTheCallerChangesTheModesOrClearsAFlag : ∃ t, step (start 0 .after 0x1F [.writeCtx 0x060]) = .next t ∧ t.ctx.rm ≠ (start 0 .after 0x1F [.writeCtx 0x060]).ctx.rm ∧
    t.ctx.tininess ≠ (start 0 .after 0x1F [.writeCtx 0x060]).ctx.tininess ∧ (0x1F : FlagSet) &&& t.ctx.flags ≠ 0x1F := ⟨_, rfl, by decide, by decide, by decide⟩
theorem witness_FlagsOfARunAreTheUnionOfItsRaisedSets : let s := start 0 .after 0 [.request (.addMags 0x3F80000033800000), .roundPack 0 false 254 0x40000000]
    (∀ l ∈ s.program.take 2, isTransaction l = true) ∧ ∃ t, Host.Core.run Sys2Proof.core 2 s = .next t := ⟨by decide, _, rfl⟩
theorem witness_EveryStepKeepsWhatLeavesTheBlockLegal : let s := start 0 .after 0 [.addMags 3 (.lit 0x7F7FFFFF) (.lit 0x7F7FFFFF)]
    s.inv ∧ ∃ t, step s = .next t := ⟨⟨by decide, by decide⟩, _, rfl⟩

end Sys2Proof.Tests
end

section
/-! The fields of a word and `pack` undo each other (rules R6 and R7). -/

namespace Sys2Proof.Machine

open Sys2Proof

theorem decompose_eq (w : Word) : decompose w = { sign := signOf w, exp := expOf w, frac := fracOf w } := rfl

/-- Rule R6 read backwards: a word is the `pack` of its own fields. -/
theorem pack_fields (w : Word) : pack (signOf w) (expOf w) (fracOf w) = w.toNat := by
  rw [pack, signOf_toNat, expOf_eq, fracOf_eq]
  omega

/-- Fields that fit their positions do not overlap, so cutting the packed word gives them back. -/
theorem decompose_packWord (s : Bool) {e f : Nat} (he : e ≤ 255) (hf : f < 2 ^ 23) :
    decompose (packWord s e f) = { sign := s, exp := e, frac := f } := by
  have hw : (packWord s e f).toNat = s.toNat * 2 ^ 31 + e * 2 ^ 23 + f := packWord_toNat s (by omega)
  have hsign : signOf (packWord s e f) = s := by
    rw [Bool.eq_iff_iff, ← Bool.toNat_eq_one, ← Bool.toNat_eq_one, signOf_toNat, hw]
    omega
  have hexp : expOf (packWord s e f) = e := by
    rw [expOf_eq, hw]
    omega
  have hfrac : fracOf (packWord s e f) = f := by
    rw [fracOf_eq, hw]
    omega
  rw [decompose_eq, hsign, hexp, hfrac]

/-- The carry of rule R7: a fraction that has outgrown its 23 bits hands one unit to the exponent. -/
theorem packWord_carry (s : Bool) (e : Nat) {f : Nat} (hf : 2 ^ 23 ≤ f) :
    packWord s e f = packWord s (e + 1) (f - 2 ^ 23) := by
  have : pack s e f = pack s (e + 1) (f - 2 ^ 23) := by
    rw [pack, pack]
    omega
  rw [packWord, this, packWord]

/-- Settles O1: `decompose` by its arithmetic (`expOf_eq`, `fracOf_eq`), and `pack_fields` for the reassembly. -/
theorem decomposeCutsTheWordIntoItsFields : Obligations.DecomposeCutsTheWordIntoItsFields := by
  intro w
  exact ⟨signOf_eq w, expOf_eq w, expOf_le w, fracOf_eq w, fracOf_lt w, pack_fields w⟩

/-- Settles O3: fitting fields come back, and a larger fraction is brought to that case by one carry, or by two for `2 ^ 24`. -/
theorem packAddsTheFieldsAndCarriesIntoTheExponent : Obligations.PackAddsTheFieldsAndCarriesIntoTheExponent := by
  intro s e f
  refine ⟨?sum, fun hf he => decompose_packWord s he hf, fun hlo hhi he => ?oneCarry, fun hf he => ?twoCarries⟩
  case sum => simp only [pack, Nat.shiftLeft_eq]
  case oneCarry =>
    rw [packWord_carry s e hlo]
    exact decompose_packWord s (by omega) (by omega)
  case twoCarries =>
    subst hf
    rw [packWord_carry s e (by decide), packWord_carry s (e + 1) (by decide)]
    exact decompose_packWord s (by omega) (by decide)

end Sys2Proof.Machine
end

section
/-! What a transaction reads and what it leaves: a function of the operands and the modes (R13), and one OR into the flags (R18). -/

namespace Sys2Proof.Machine

open Sys2Proof

/-! ### The state a response leaves -/

/-- `s` after any response `r`: `r` is added and what it raises is ORed into the flags, nothing else. `State.emit` of a `CO`
record and `State.respond` are its two cases. -/
def afterResponse (s : State) (r : Response) : State :=
  { ctx := { rm := s.ctx.rm, tininess := s.ctx.tininess, flags := s.ctx.flags ||| raisedBy r }
    roundOdd := s.roundOdd
    program := s.program
    vars := s.vars
    responses := s.responses ++ [r] }

@[simp] theorem afterResponse_flags (s : State) (r : Response) :
    (afterResponse s r).ctx.flags = s.ctx.flags ||| raisedBy r := rfl

theorem emit_co_eq_afterResponse (s : State) (c : CO) : s.emit (.co c) = afterResponse s (.co c) := by
  simp [State.emit, afterResponse, raisedBy]

theorem respond_eq_afterResponse (s : State) (r : RR) : s.respond r = afterResponse s (.rr r) := rfl

/-! ### A transaction reads nothing of the state but the modes (R13) -/

/-- All that a transaction reads of the state is alike in `s` and `u`: `rm`, `tininess` and `ROUND_ODD`. -/
structure SameModes (s u : State) : Prop where
  rm : u.ctx.rm = s.ctx.rm
  tininess : u.ctx.tininess = s.ctx.tininess
  roundOdd : u.roundOdd = s.roundOdd

theorem SameModes.mode_eq {s u : State} (h : SameModes s u) : u.mode = s.mode := by
  rw [State.mode, State.mode, h.rm, h.roundOdd]

theorem exec_instrOfMode_of_legal {m : RoundingMode} (sign : Bool) (exp : ExpPort) {sig : Word} {s : State}
    (hm : m = .rod → s.roundOdd = true) (hsig : legalSig sig = true) :
    exec (instrOfMode m sign exp sig) s = .next (s.respond (roundPack m s.ctx.tininess sign exp.toInt sig)) := by
  have hexists : ¬ (m = .rod ∧ s.roundOdd = false) := fun ⟨hrod, hodd⟩ => by simp [hm hrod] at hodd
  rw [exec_instrOfMode, if_neg hexists, runRoundPack_of_legal m sign exp s hsig]

theorem exec_addmagsF32_of_sameSign {a b : Word} (s : State) (hs : signOf a = signOf b) :
    exec (.addmagsF32 a b) s = finishPipeline (combine a b) a b s :=
  if_pos ((sameSign_iff a b).mpr hs)

/-- Of the state, the pipeline's finish reads the modes alone. -/
theorem finishPipeline_sameModes {co : CO} {a b : Word} {s t : State} (h : finishPipeline co a b s = .next t) :
    ∃ r : RR, ∀ u, SameModes s u → finishPipeline co a b u = .next (u.respond r) := by
  rcases finishPipeline_eq_next h with ⟨w, rfl, -⟩ | ⟨rfl, -⟩ | ⟨sign, exp, sig, m, rfl, hm, -⟩
  case inl => exact ⟨_, fun _ _ => rfl⟩
  case inr.inl => exact ⟨_, fun _ _ => rfl⟩
  case inr.inr =>
    refine ⟨roundPack m s.ctx.tininess sign exp sig, fun u hu => ?_⟩
    rw [← hu.tininess, finishPipeline, hu.mode_eq, hm]

/-- Rule R13: an instruction that completes gives one response, the same in every state of the same modes. -/
theorem exec_sameModes {i : Instr} {s t : State} (h : exec i s = .next t) :
    ∃ r, ∀ u, SameModes s u → exec i u = .next (afterResponse u r) := by
  rcases exec_eq_next h with ⟨c, a, b, rfl, hs, hc, -⟩ | ⟨m, sign, exp, sig, rfl, hm, hsig, -⟩ | ⟨a, b, rfl, hs, hfin⟩
  case inl =>
    refine ⟨.co (pathOf c a b), fun u _ => ?_⟩
    rw [exec_instrOfClass, runPath_of_legal (pathOf c) u hs hc, emit_co_eq_afterResponse]
  case inr.inl =>
    refine ⟨.rr (roundPack m s.ctx.tininess sign exp.toInt sig), fun u hu => ?_⟩
    rw [← hu.roundOdd] at hm
    rw [exec_instrOfMode_of_legal sign exp hm hsig, hu.tininess, respond_eq_afterResponse]
  case inr.inr =>
    obtain ⟨r, hr⟩ := finishPipeline_sameModes hfin
    refine ⟨.rr r, fun u hu => ?_⟩
    rw [exec_addmagsF32_of_sameSign u hs, hr u hu, respond_eq_afterResponse]

/-- Settles O50: the response is the one `exec_sameModes` gives, and the set ORed into the flags is what it raises. -/
theorem transactionsDependOnlyOnOperandsAndModes : Obligations.TransactionsDependOnlyOnOperandsAndModes := by
  intro i s t h
  obtain ⟨r, hr⟩ := exec_sameModes h
  exact ⟨r, raisedBy r, fun u hrm ht hodd => hr u ⟨hrm, ht, hodd⟩⟩

/-! ### What a transaction can raise (R18) -/

/-- The sets stage R can raise: nothing, inexact, and inexact with underflow (R75) or with overflow (R76). -/
def stageRRaises : List FlagSet := [0, flagNX, flagUF ||| flagNX, flagOF ||| flagNX]

theorem stageRRaises_noDzNoNv : ∀ f ∈ stageRRaises, f.getLsbD 3 = false ∧ f.getLsbD 4 = false := by decide

/-- Underflow comes only with inexact, as both ask for nonzero round bits (R75, R78). -/
theorem underflowFlag_or_inexactFlag_mem (tiny : Bool) (bits : Nat) :
    underflowFlag tiny bits ||| inexactFlag bits ∈ stageRRaises := by
  by_cases hb : bits = 0
  case pos => simp [underflowFlag, inexactFlag, stageRRaises, hb]
  case neg => cases tiny <;> simp [underflowFlag, inexactFlag, stageRRaises, hb]

theorem roundPack_raise_mem (m : RoundingMode) (t : Tininess) (sign : Bool) (exp : Int) (sig : Word) :
    (roundPack m t sign exp sig).raise ∈ stageRRaises := by
  unfold roundPack
  split
  case isTrue => exact underflowFlag_or_inexactFlag_mem _ _
  case isFalse =>
    split
    case isTrue => exact (by decide : overflowFlags ∈ stageRRaises)
    case isFalse => exact underflowFlag_or_inexactFlag_mem false _

/-- The tests of rule R52 find a class whose condition in rule R45's table holds. -/
theorem inClass_classify (a b : Word) : inClass (classify a b) a b = true := by
  have ha := expOf_le a
  have hb := expOf_le b
  unfold classify
  split_ifs <;> simp [inClass] <;> omega

theorem isNaN_iff (w : Word) : isNaN w = true ↔ expOf w = 255 ∧ fracOf w ≠ 0 := by
  simp [isNaN]

/-- The three classes that delegate (R54, R58, R60) all ask for a NaN operand. -/
theorem isNaN_of_pathOf_eq_nan {c : DispatchClass} {a b : Word} (hc : inClass c a b = true) (hp : pathOf c a b = .nan) :
    isNaN a = true ∨ isNaN b = true := by
  rw [isNaN_iff, isNaN_iff]
  cases c
  case nanEq | nanFarB | nanFarA => simp [inClass] at hc; tauto
  case alignBFar | alignAFar => simp only [pathOf, pathAlignBFar, pathAlignAFar, alignSum] at hp; split at hp <;> cases hp
  all_goals cases hp

theorem isNaN_of_combine_eq_nan {a b : Word} (h : combine a b = .nan) : isNaN a = true ∨ isNaN b = true :=
  isNaN_of_pathOf_eq_nan (inClass_classify a b) (combine_eq_pathOf a b ▸ h)

theorem propagateNaN_raise_cases (a b : Word) : (propagateNaN a b).raise = 0 ∨ (propagateNaN a b).raise = flagNV := by
  cases h : (Config.nanChoice a b).invalid <;> simp [propagateNaN, h]

/-- A transaction raises a set of stage R's, or it is `ADDMAGS.F32` with a NaN operand and raises what `propagateNaN` does. -/
theorem exec_raised_cases {i : Instr} {s t : State} (h : exec i s = .next t) :
    ∃ r, t = afterResponse s r ∧ (raisedBy r ∈ stageRRaises ∨
      ∃ a b, i = .addmagsF32 a b ∧ (isNaN a = true ∨ isNaN b = true) ∧ r = .rr (propagateNaN a b)) := by
  have none_mem : (0 : FlagSet) ∈ stageRRaises := by decide
  rcases exec_eq_next h with ⟨c, a, b, -, -, -, rfl⟩ | ⟨m, sign, exp, sig, -, -, -, rfl⟩ | ⟨a, b, rfl, -, hfin⟩
  case inl => exact ⟨_, emit_co_eq_afterResponse s _, .inl none_mem⟩
  case inr.inl => exact ⟨_, respond_eq_afterResponse s _, .inl (roundPack_raise_mem ..)⟩
  case inr.inr =>
    rcases finishPipeline_eq_next hfin with ⟨w, -, rfl⟩ | ⟨hnan, rfl⟩ | ⟨sign, exp, sig, m, -, -, rfl⟩
    case inl => exact ⟨_, respond_eq_afterResponse s _, .inl none_mem⟩
    case inr.inl =>
      exact ⟨_, respond_eq_afterResponse s _, .inr ⟨a, b, rfl, isNaN_of_combine_eq_nan hnan, rfl⟩⟩
    case inr.inr => exact ⟨_, respond_eq_afterResponse s _, .inl (roundPack_raise_mem ..)⟩

/-- Settles O51: by `exec_raised_cases` the flags get one set by OR; a set of stage R's holds neither DZ nor NV, and what
`propagateNaN` raises is nothing or NV. -/
theorem divideByZeroIsUntouchedAndInvalidIsOnlyForNans : Obligations.DivideByZeroIsUntouchedAndInvalidIsOnlyForNans := by
  intro i s t h
  obtain ⟨r, rfl, hstageR | ⟨a, b, rfl, hnan, rfl⟩⟩ := exec_raised_cases h
  all_goals simp only [afterResponse_flags, BitVec.getLsbD_or]
  · obtain ⟨hdz, hnv⟩ := stageRRaises_noDzNoNv _ hstageR
    rw [hdz, hnv, Bool.or_false, Bool.or_false]
    exact ⟨rfl, id, fun hchanged => absurd rfl hchanged⟩
  · rcases propagateNaN_raise_cases a b with hnone | hinvalid
    · simp [raisedBy, hnone]
    · refine ⟨?dz, fun hset => ?nv, fun _ => ⟨a, b, rfl, hnan, hinvalid⟩⟩
      case dz => simp [raisedBy, hinvalid, flagNV]
      case nv => rw [hset, Bool.true_or]

end Sys2Proof.Machine
end

section
/-! The value classes of a word (R34): what each predicate says of the fields, and that exactly one class holds. -/

namespace Sys2Proof.Machine

open Sys2Proof

theorem isZero_iff (w : Word) : isZero w = true ↔ expOf w = 0 ∧ fracOf w = 0 := by
  simp [isZero]

theorem isSubnormal_iff (w : Word) : isSubnormal w = true ↔ expOf w = 0 ∧ fracOf w ≠ 0 := by
  simp [isSubnormal]

theorem isNormal_iff (w : Word) : isNormal w = true ↔ 1 ≤ expOf w ∧ expOf w ≤ 254 := by
  simp [isNormal]

theorem isInf_iff (w : Word) : isInf w = true ↔ expOf w = 255 ∧ fracOf w = 0 := by
  simp [isInf]

theorem isFinite_iff (w : Word) : isFinite w = true ↔ expOf w ≤ 254 := by
  simp [isFinite]

/-- The exponent field is at its bottom, strictly inside, or at its top. At either end the fraction chooses between two
classes; inside it is not read. -/
theorem valueClasses_count (w : Word) :
    (isZero w).toNat + (isSubnormal w).toNat + (isNormal w).toNat + (isInf w).toNat + (isNaN w).toNat = 1 := by
  have hrange : expOf w = 0 ∨ (1 ≤ expOf w ∧ expOf w ≤ 254) ∨ expOf w = 255 := by
    have hle := expOf_le w
    omega
  simp only [Bool.toNat, Bool.cond_eq_ite, isZero_iff, isSubnormal_iff, isNormal_iff, isInf_iff, isNaN_iff]
  obtain hbottom | hinside | htop := hrange
  · by_cases hfrac : fracOf w = 0 <;> simp [hbottom, hfrac]
  · have hnotBottom : expOf w ≠ 0 := by omega
    have hnotTop : expOf w ≠ 255 := by omega
    simp [hinside, hnotBottom, hnotTop]
  · by_cases hfrac : fracOf w = 0 <;> simp [htop, hfrac]

/-- Settles O2: each predicate by its own equivalence, and the count by the three ranges of the exponent field. -/
theorem exactlyOneValueClassHoldsOfAWord : Obligations.ExactlyOneValueClassHoldsOfAWord := fun w =>
  ⟨isZero_iff w, isSubnormal_iff w, isNormal_iff w, isInf_iff w, isNaN_iff w, isFinite_iff w, valueClasses_count w⟩

end Sys2Proof.Machine
end

section
/-! Stage C (40_combiner.md): its `CMB.*` operations complete, and what an `EARLY` word and a triple can be (R53 to R67). -/

namespace Sys2Proof.Machine

open Sys2Proof

/-! ### The word of given fields -/

/-- `pack_fields` as an equation of words. -/
theorem packWord_fields (w : Word) : packWord (signOf w) (expOf w) (fracOf w) = w := by
  rw [packWord, pack_fields, BitVec.ofNat_toNat, BitVec.setWidth_eq]

section PackedFields
variable (s : Bool) {e f : Nat} (he : e ≤ 255) (hf : f < 2 ^ 23)
include he hf

theorem signOf_packWord : signOf (packWord s e f) = s := congrArg Fields.sign (decompose_packWord s he hf)

theorem expOf_packWord : expOf (packWord s e f) = e := congrArg Fields.exp (decompose_packWord s he hf)

end PackedFields

/-! ### The `CMB.*` operations on legal operands -/

theorem exec_instrOfClass_of_inClass {c : DispatchClass} {a b : Word} (s : State) (hs : signOf a = signOf b)
    (hc : inClass c a b = true) : exec (instrOfClass c a b) s = .next (afterCO s (pathOf c a b)) := by
  rw [exec_instrOfClass, runPath_of_legal (pathOf c) s hs hc, emit_eq_afterCO]

/-- Settles O14: the fields asked for are the condition of the class, and the path of each of the three is the delegation. -/
theorem nanClassesAnswerADelegation : Obligations.NanClassesAnswerADelegation := by
  intro s a b hs
  refine ⟨fun ha hb hfrac => ?nanEq, fun ha hb hfrac => ?nanFarB, fun hb ha hfrac => ?nanFarA⟩
  case nanEq =>
    have hc : inClass .nanEq a b = true := by simpa [inClass, ha, hb] using hfrac
    exact exec_instrOfClass_of_inClass s hs hc
  case nanFarB =>
    have hc : inClass .nanFarB a b = true := by simp [inClass, ha, hb, hfrac]
    exact exec_instrOfClass_of_inClass s hs hc
  case nanFarA =>
    have hc : inClass .nanFarA a b = true := by simp [inClass, ha, hb, hfrac]
    exact exec_instrOfClass_of_inClass s hs hc

/-! ### The sum of two words of exponent field 0 (R53) -/

theorem toNat_and_fracMask (w : Word) : (w &&& 0x007FFFFF).toNat = fracOf w := by
  rw [fracOf_eq, BitVec.toNat_and]
  exact Nat.and_two_pow_sub_one_eq_mod _ 23

theorem pathSubsum_eq_early (a b : Word) : pathSubsum a b = .early (a + (b &&& 0x007FFFFF)) := by
  rw [pathSubsum, ← toNat_and_fracMask, BitVec.ofNat_add, BitVec.ofNat_toNat, BitVec.ofNat_toNat]
  simp

section Subsum
variable {a : Word} (ha : expOf a = 0) (b : Word)
include ha

/-- The low 31 bits of the sum are below `2 ^ 24`, so the word does not wrap. -/
theorem toNat_subsum : (a + (b &&& 0x007FFFFF)).toNat = a.toNat + fracOf b := by
  have hfrac := fracOf_lt b
  have hword := a.isLt
  rw [expOf_eq] at ha
  rw [BitVec.toNat_add, toNat_and_fracMask]
  omega

theorem signOf_subsum : signOf (a + (b &&& 0x007FFFFF)) = signOf a := by
  have hfrac := fracOf_lt b
  have hsum := toNat_subsum ha b
  rw [expOf_eq] at ha
  rw [Bool.eq_iff_iff, ← Bool.toNat_eq_one, ← Bool.toNat_eq_one, signOf_toNat, signOf_toNat]
  omega

/-- The fractions carry at most once into the exponent field. -/
theorem expOf_subsum_le : expOf (a + (b &&& 0x007FFFFF)) ≤ 1 := by
  have hfrac := fracOf_lt b
  have hsum := toNat_subsum ha b
  rw [expOf_eq] at ha ⊢
  omega

end Subsum

/-- Settles O13: `pathSubsum_eq_early` gives the word, `toNat_subsum` that it does not wrap, `signOf_subsum` its sign. -/
theorem subsumAnswersTheRawWordSum : Obligations.SubsumAnswersTheRawWordSum := by
  intro s a b hs ha hb
  have hc : inClass .subsum a b = true := by simp [inClass, ha, hb]
  refine ⟨?_, toNat_subsum ha b, signOf_subsum ha b⟩
  rw [← pathSubsum_eq_early]
  exact exec_instrOfClass_of_inClass s hs hc

/-! ### What an `EARLY` word and a triple can be (R66, R67) -/

/-- Rule R56's significand has outgrown its 23 bits, so the word is the one of the next exponent. -/
theorem pathEqExact_eq_early (a b : Word) :
    pathEqExact a b = .early (packWord (signOf a) (expOf a + 1) ((fracOf a + fracOf b) / 2)) := by
  have hsum : (eqBias + fracOf a + fracOf b) >>> 1 = 2 ^ 23 + (fracOf a + fracOf b) / 2 := by
    rw [Nat.shiftRight_eq_div_pow, eqBias]
    omega
  rw [pathEqExact, hsum, packWord_carry _ _ (Nat.le_add_right ..), Nat.add_sub_cancel_left]

/-- Both branches of rule R62 answer a triple of the given sign. -/
theorem alignSum_eq_round (sign : Bool) (expFar fracFar expNear fracNear : Nat) :
    ∃ exp sig, alignSum sign expFar fracFar expNear fracNear = .round sign exp sig := by
  simp only [alignSum]
  split
  case isTrue => exact ⟨_, _, rfl⟩
  case isFalse => exact ⟨_, _, rfl⟩

theorem sign_of_alignSum_eq_round {sign sign' : Bool} {expFar fracFar expNear fracNear : Nat} {exp : Int} {sig : Word}
    (h : alignSum sign expFar fracFar expNear fracNear = .round sign' exp sig) : sign' = sign := by
  obtain ⟨_, _, halign⟩ := alignSum_eq_round sign expFar fracFar expNear fracNear
  injection halign.symm.trans h with hsign
  exact hsign.symm

theorem alignSum_ne_early (sign : Bool) (expFar fracFar expNear fracNear : Nat) (w : Word) :
    alignSum sign expFar fracFar expNear fracNear ≠ .early w := by
  obtain ⟨_, _, halign⟩ := alignSum_eq_round sign expFar fracFar expNear fracNear
  rw [halign]
  exact CO.noConfusion

/-- A triple always takes its sign from `uiA`. -/
theorem sign_of_pathOf_eq_round {c : DispatchClass} {a b : Word} {sign : Bool} {exp : Int} {sig : Word}
    (hp : pathOf c a b = .round sign exp sig) : sign = signOf a := by
  cases c
  case eqRound => injection hp with hsign; exact hsign.symm
  case alignBFar | alignAFar => exact sign_of_alignSum_eq_round hp
  all_goals cases hp

/-- `w` is a word stage C may answer early on `a` and `b`: of the sign of `a`, and finite or an infinity that is an operand. -/
structure EarlyWordOk (a b w : Word) : Prop where
  sign : signOf w = signOf a
  finite_or_inf : expOf w ≤ 254 ∨ (isInf w = true ∧ (w = a ∨ w = b))

/-- The infinity of the common sign is the far operand that is infinite (R59, R61). -/
theorem packWord_inf_eq {s : Bool} {w : Word} (hs : s = signOf w) (he : expOf w = 255) (hf : fracOf w = 0) :
    packWord s 255 0 = w := by
  rw [hs, ← he, ← hf, packWord_fields]

/-- The inversion lemma of the `EARLY` exit. -/
theorem earlyWordOk_of_pathOf_eq_early {c : DispatchClass} {a b w : Word} (hs : signOf a = signOf b) (hc : inClass c a b = true)
    (hp : pathOf c a b = .early w) : EarlyWordOk a b w := by
  cases c
  case subsum =>
    obtain ⟨ha, -⟩ : expOf a = 0 ∧ expOf b = 0 := by simpa [inClass] using hc
    injection (pathSubsum_eq_early a b).symm.trans hp with hw
    subst hw
    exact ⟨signOf_subsum ha b, .inl ((expOf_subsum_le ha b).trans (by decide))⟩
  case infEq =>
    obtain ⟨⟨⟨ha, -⟩, hf⟩, -⟩ : ((expOf a = 255 ∧ expOf b = 255) ∧ fracOf a = 0) ∧ fracOf b = 0 := by simpa [inClass] using hc
    injection hp with hw
    subst hw
    exact ⟨rfl, .inr ⟨(isInf_iff a).mpr ⟨ha, hf⟩, .inl rfl⟩⟩
  case eqExact =>
    obtain ⟨⟨-, hle⟩, -⟩ : ((1 ≤ expOf a ∧ expOf a = expOf b) ∧ expOf a ≤ 253) ∧ (fracOf a + fracOf b) % 2 = 0 := by
      simpa [inClass] using hc
    have hfa := fracOf_lt a
    have hfb := fracOf_lt b
    have he : expOf a + 1 ≤ 255 := by omega
    have hf : (fracOf a + fracOf b) / 2 < 2 ^ 23 := by omega
    injection (pathEqExact_eq_early a b).symm.trans hp with hw
    subst hw
    refine ⟨signOf_packWord _ he hf, .inl ?_⟩
    rw [expOf_packWord _ he hf]
    omega
  case infFarB =>
    obtain ⟨⟨-, he⟩, hf⟩ : (expOf a < expOf b ∧ expOf b = 255) ∧ fracOf b = 0 := by simpa [inClass] using hc
    injection hp with hw
    rw [packWord_inf_eq hs he hf] at hw
    subst hw
    exact ⟨hs.symm, .inr ⟨(isInf_iff b).mpr ⟨he, hf⟩, .inr rfl⟩⟩
  case infFarA =>
    obtain ⟨⟨-, he⟩, hf⟩ : (expOf b < expOf a ∧ expOf a = 255) ∧ fracOf a = 0 := by simpa [inClass] using hc
    injection hp with hw
    rw [packWord_inf_eq rfl he hf] at hw
    subst hw
    exact ⟨rfl, .inr ⟨(isInf_iff a).mpr ⟨he, hf⟩, .inl rfl⟩⟩
  case alignBFar | alignAFar => exact absurd hp (alignSum_ne_early _ _ _ _ _ w)
  all_goals cases hp

theorem earlyWordOk_of_combine_eq_early {a b w : Word} (hs : signOf a = signOf b) (h : combine a b = .early w) :
    EarlyWordOk a b w :=
  earlyWordOk_of_pathOf_eq_early hs (inClass_classify a b) (combine_eq_pathOf a b ▸ h)

/-- Settles O22: each exit of stage C by its inversion lemma. -/
theorem stageCKeepsTheCommonSign : Obligations.StageCKeepsTheCommonSign := by
  intro a b hs
  refine ⟨fun w h => (earlyWordOk_of_combine_eq_early hs h).sign, fun sign exp sig h => ?_⟩
  exact sign_of_pathOf_eq_round (combine_eq_pathOf a b ▸ h)

/-- Settles O23: the operation of the pair's own class completes, and an early word is finite or an infinite operand, neither
of which is a NaN. -/
theorem stageCNeverFailsAndRaisesNoFlag : Obligations.StageCNeverFailsAndRaisesNoFlag := by
  intro s a b hs
  refine ⟨?completes, fun w h => ?word⟩
  case completes =>
    rw [combine_eq_pathOf]
    exact exec_instrOfClass_of_inClass s hs (inClass_classify a b)
  case word =>
    rw [← Bool.not_eq_true, isNaN_iff, isInf_iff]
    obtain ⟨-, hfinite | ⟨hinf, hoperand⟩⟩ := earlyWordOk_of_combine_eq_early hs h
    · exact ⟨by omega, by omega⟩
    · obtain ⟨-, hfrac⟩ := (isInf_iff w).mp hinf
      exact ⟨fun ⟨_, hne⟩ => hne hfrac, fun _ => hoperand⟩

end Sys2Proof.Machine
end

section
/-! Stage R on a non-negative exponent (R71, R76): the overflow test, its substitute word, and what is raised off that path. -/

namespace Sys2Proof.Machine

open Sys2Proof

theorem overflows_iff (m : RoundingMode) (sign : Bool) (exp : Int) (sig : Nat) :
    overflows m sign exp sig = true ↔ 0xFD < exp ∨ (exp = 0xFD ∧ 2 ^ 31 ≤ sig + roundIncrement m sign) := by
  simp only [overflows, Bool.or_eq_true, Bool.and_eq_true, decide_eq_true_eq]

section NonNegative
variable {exp : Int} (hexp : 0 ≤ exp) {m : RoundingMode} (t : Tininess) {sign : Bool} {sig : Word}
include hexp

theorem roundPack_of_overflows (h : overflows m sign exp sig.toNat = true) :
    roundPack m t sign exp sig = overflowResult m sign := by
  rw [roundPack, if_neg (Int.not_lt.mpr hexp), if_pos h]

theorem roundPack_of_not_overflows (h : ¬ overflows m sign exp sig.toNat = true) :
    roundPack m t sign exp sig = roundTail m sign exp.toNat sig.toNat (roundBits sig.toNat) 0 := by
  rw [roundPack, if_neg (Int.not_lt.mpr hexp), if_neg h]

end NonNegative

/-- Rule R76's subtraction, written out: one less than the infinity of a sign is its largest finite value. -/
theorem overflowResult_eq (m : RoundingMode) (sign : Bool) :
    overflowResult m sign =
      { word := if roundIncrement m sign = 0 then (if sign then 0xFF7FFFFF else 0x7F7FFFFF)
                else (if sign then 0xFF800000 else 0x7F800000)
        raise := flagOF ||| flagNX } := by
  rw [overflowResult, overflowFlags]
  split
  case isTrue => cases sign <;> rfl
  case isFalse => cases sign <;> rfl

/-- Steps 4 to 8 add at most NX, so OF (position 2, R43) stays as step 3 left it. -/
theorem roundTail_raise_getLsbD_two (m : RoundingMode) (sign : Bool) (exp sig bits : Nat) (raised : FlagSet) :
    (roundTail m sign exp sig bits raised).raise.getLsbD 2 = raised.getLsbD 2 := by
  have hnx : (inexactFlag bits).getLsbD 2 = false := by
    rw [inexactFlag]
    split
    case isTrue => rfl
    case isFalse => rfl
  rw [roundTail, BitVec.getLsbD_or, hnx, Bool.or_false]

/-- Settles O32: the premise of either clause is the test of step 3 (`overflows_iff`); past the range the answer is
`overflowResult_eq`, and within it steps 4 to 8 run on a step 3 that raised nothing. -/
theorem roundPackOverflowSubstitutesByIncrement : Obligations.RoundPackOverflowSubstitutesByIncrement := by
  intro m t sign exp sig _ _ hexp
  rw [← overflows_iff]
  refine ⟨fun hpast => ?past, fun hwithin => ?within⟩
  case past => rw [roundPack_of_overflows hexp t hpast, overflowResult_eq]
  case within =>
    rw [roundPack_of_not_overflows hexp t hwithin, roundTail_raise_getLsbD_two]
    rfl

end Sys2Proof.Machine
end

section
/-! The pipeline of `ADDMAGS.F32` (42_pipeline.md): what it answers on each exit of stage C (R94), and on a NaN operand (R101). -/

namespace Sys2Proof.Machine

open Sys2Proof

/-! ### One rule for each exit of stage C (R94) -/

section Exits
variable (s : State) {a b : Word} (hs : signOf a = signOf b)
include hs

theorem exec_addmagsF32_of_combine_eq_early {w : Word} (h : combine a b = .early w) :
    exec (.addmagsF32 a b) s = .next (afterWord s w 0) := by
  rw [exec_addmagsF32_of_sameSign s hs, h, finishPipeline, respond_eq_afterWord]

/-- The modes are not read on this exit, so a reserved `rm` does no harm (R46). -/
theorem exec_addmagsF32_of_combine_eq_nan (h : combine a b = .nan) :
    exec (.addmagsF32 a b) s = .next (afterWord s (propagateNaN a b).word (propagateNaN a b).raise) := by
  rw [exec_addmagsF32_of_sameSign s hs, h, finishPipeline, respond_eq_afterWord]

theorem exec_addmagsF32_of_combine_eq_round {sign : Bool} {exp : Int} {sig : Word} {m : RoundingMode}
    (h : combine a b = .round sign exp sig) (hm : s.mode = some m) :
    exec (.addmagsF32 a b) s = .next (afterWord s (roundPack m s.ctx.tininess sign exp sig).word
      (roundPack m s.ctx.tininess sign exp sig).raise) := by
  simp only [exec_addmagsF32_of_sameSign s hs, h, finishPipeline, hm, respond_eq_afterWord]

end Exits

/-- Settles O39: the rule of each exit; the frame is `afterWord`'s. -/
theorem addMagsRunsTheExitOfStageC : Obligations.AddMagsRunsTheExitOfStageC := by
  intro s a b hs
  refine ⟨fun w hearly => ?early, fun hnan => ?nan, fun sign exp sig m hround hm => ?round⟩
  case early => exact exec_addmagsF32_of_combine_eq_early s hs hearly
  case nan => exact exec_addmagsF32_of_combine_eq_nan s hs hnan
  case round => exact exec_addmagsF32_of_combine_eq_round s hs hround hm

/-! ### A NaN operand (R101) -/

/-- The converse of `isNaN_of_pathOf_eq_nan`: a class that does not delegate has no room for a NaN, as it bounds both exponents
by 254 or asks a fraction of 0 of an operand of exponent 255. -/
theorem pathOf_eq_nan_of_isNaN {c : DispatchClass} {a b : Word} (hc : inClass c a b = true)
    (hn : isNaN a = true ∨ isNaN b = true) : pathOf c a b = .nan := by
  rw [isNaN_iff, isNaN_iff] at hn
  cases c
  case nanEq | nanFarB | nanFarA => rfl
  all_goals
    simp only [inClass, Bool.and_eq_true, decide_eq_true_eq, beq_iff_eq] at hc
    omega

/-- Stage C delegates exactly when an operand is a NaN. -/
theorem combine_eq_nan_iff (a b : Word) : combine a b = .nan ↔ isNaN a = true ∨ isNaN b = true := by
  refine ⟨isNaN_of_combine_eq_nan, fun hn => ?_⟩
  rw [combine_eq_pathOf]
  exact pathOf_eq_nan_of_isNaN (inClass_classify a b) hn

theorem fracOf_packWord (s : Bool) {e f : Nat} (he : e ≤ 255) (hf : f < 2 ^ 23) : fracOf (packWord s e f) = f :=
  congrArg Fields.frac (decompose_packWord s he hf)

/-- The contract of rule R9: whatever the free policy chooses, the fraction is nonzero and fits its 23 bits. -/
theorem isNaN_propagateNaN (a b : Word) : isNaN (propagateNaN a b).word = true := by
  have hfit : (Config.nanChoice a b).fracIndex.val + 1 < 2 ^ 23 := by omega
  rw [isNaN_iff, propagateNaN, expOf_packWord _ le_rfl hfit, fracOf_packWord _ le_rfl hfit]
  exact ⟨rfl, Nat.succ_ne_zero _⟩

/-- Settles O42: a NaN operand sends stage C to its NAN exit, whose answer is the one of `propagateNaN` in every state. -/
theorem nanOperandsGoToPropagateNan : Obligations.NanOperandsGoToPropagateNan := by
  intro s a b hs hn
  have hexit : combine a b = .nan := (combine_eq_nan_iff a b).mpr hn
  exact ⟨exec_addmagsF32_of_combine_eq_nan s hs hexit, isNaN_propagateNaN a b, propagateNaN_raise_cases a b⟩

end Sys2Proof.Machine
end

section
/-! Requests (30_encoding.md): the dispatch map is a partition (R45), and decoder and encoder undo each other (R37, R39, R49). -/

namespace Sys2Proof.Machine

open Sys2Proof

/-! ### The dispatch map (R45, R52) -/

/-- The conditions of rule R45's table exclude each other: the row that holds is the one the tests of rule R52 find. -/
theorem eq_classify_of_inClass {c : DispatchClass} {a b : Word} (hc : inClass c a b = true) : c = classify a b := by
  have ha := expOf_le a
  have hb := expOf_le b
  unfold classify
  cases c
  all_goals
    simp only [inClass, Bool.and_eq_true, Bool.or_eq_true, decide_eq_true_eq, beq_iff_eq, bne_iff_ne] at hc
    split_ifs <;> grind

/-- Settles O7: the class the tests find has its condition met (`inClass_classify`), and no other has. -/
theorem dispatchClassesPartitionAllOperandPairs : Obligations.DispatchClassesPartitionAllOperandPairs :=
  fun a b => ⟨inClass_classify a b, fun _ hc => eq_classify_of_inClass hc⟩

/-! ### The packed requests as numbers, taken apart and put together -/

theorem toNat_append_eq_add {m n : Nat} (x : BitVec m) (y : BitVec n) : (x ++ y).toNat = x.toNat * 2 ^ n + y.toNat := by
  rw [BitVec.toNat_append, ← Nat.shiftLeft_add_eq_or_of_lt y.isLt, Nat.shiftLeft_eq]

theorem toNat_cqPack (a b : Word) : (cqPack a b).toNat = a.toNat * 2 ^ 32 + b.toNat := toNat_append_eq_add a b

theorem toNat_rqPack (sign : Bool) (exp : ExpPort) (sig : Word) :
    (rqPack sign exp sig).toNat = sign.toNat * 2 ^ 48 + exp.toNat * 2 ^ 32 + sig.toNat := by
  have h : (rqPack sign exp sig).toNat = ((BitVec.ofBool sign).toNat * 2 ^ 16 + exp.toNat) * 2 ^ 32 + sig.toNat := by
    rw [← toNat_append_eq_add, ← toNat_append_eq_add]
    rfl
  rw [h, BitVec.toNat_ofBool]
  ring

theorem toNat_rqSign (p : RqWord) : (rqSign p).toNat = p.toNat / 2 ^ 48 := by
  have hp := p.isLt
  rw [rqSign, BitVec.getLsbD, Nat.testBit_eq_decide_div_mod_eq, Bool.toNat, Bool.cond_decide]
  split <;> omega

theorem toNat_rqExp (p : RqWord) : (rqExp p).toNat = p.toNat / 2 ^ 32 % 2 ^ 16 := by
  rw [rqExp, BitVec.extractLsb'_toNat, Nat.shiftRight_eq_div_pow]

theorem toNat_rqSig (p : RqWord) : (rqSig p).toNat = p.toNat % 2 ^ 32 := by
  rw [rqSig, BitVec.extractLsb'_toNat, Nat.shiftRight_zero]

@[simp] theorem cqPack_cqA_cqB (q : CqWord) : cqPack (cqA q) (cqB q) = q := by
  have hq := q.isLt
  apply BitVec.eq_of_toNat_eq
  rw [toNat_cqPack, cqA, cqB, BitVec.extractLsb'_toNat, BitVec.extractLsb'_toNat, Nat.shiftRight_eq_div_pow, Nat.shiftRight_zero]
  omega

section RqFields
variable (sign : Bool) (exp : ExpPort) (sig : Word)

@[simp] theorem rqSign_rqPack : rqSign (rqPack sign exp sig) = sign := by
  have hexp := exp.isLt
  have hsig := sig.isLt
  rw [Bool.eq_iff_iff, ← Bool.toNat_eq_one, ← Bool.toNat_eq_one, toNat_rqSign, toNat_rqPack]
  omega

@[simp] theorem rqExp_rqPack : rqExp (rqPack sign exp sig) = exp := by
  have hexp := exp.isLt
  have hsig := sig.isLt
  apply BitVec.eq_of_toNat_eq
  rw [toNat_rqExp, toNat_rqPack]
  omega

@[simp] theorem rqSig_rqPack : rqSig (rqPack sign exp sig) = sig := by
  have hsig := sig.isLt
  apply BitVec.eq_of_toNat_eq
  rw [toNat_rqSig, toNat_rqPack]
  omega

end RqFields

@[simp] theorem rqPack_fields (p : RqWord) : rqPack (rqSign p) (rqExp p) (rqSig p) = p := by
  have hp := p.isLt
  apply BitVec.eq_of_toNat_eq
  rw [toNat_rqPack, toNat_rqSign, toNat_rqExp, toNat_rqSig]
  omega

/-! ### The three families of instructions, as the decoder and the encoder see them -/

section Families
variable (c : DispatchClass) (a b : Word) (m : RoundingMode) (sign : Bool) (exp : ExpPort) (sig : Word)

theorem encode_instrOfClass : encode (instrOfClass c a b) = .combine (cqPack a b) := by cases c <;> rfl

theorem encode_instrOfMode : encode (instrOfMode m sign exp sig) = .roundPack (rqPack sign exp sig) := by cases m <;> rfl

theorem wellFormed_instrOfClass : (instrOfClass c a b).wellFormed = (sameSign a b && inClass c a b) := by cases c <;> rfl

theorem wellFormed_instrOfMode : (instrOfMode m sign exp sig).wellFormed = legalSig sig := by cases m <;> rfl

theorem mode_instrOfClass : (instrOfClass c a b).mode = none := by cases c <;> rfl

theorem mode_instrOfMode : (instrOfMode m sign exp sig).mode = some m := by cases m <;> rfl

end Families

section Decode
variable {roundOdd : Bool} {rm : RmCode}

theorem decode_combine_of_sameSign {q : CqWord} (hs : sameSign (cqA q) (cqB q) = true) :
    decode roundOdd rm (.combine q) = .ok (instrOfClass (classify (cqA q) (cqB q)) (cqA q) (cqB q)) := if_pos hs

theorem decode_addMags_of_sameSign {q : CqWord} (hs : sameSign (cqA q) (cqB q) = true) :
    decode roundOdd rm (.addMags q) = .ok (.addmagsF32 (cqA q) (cqB q)) := if_pos hs

theorem decode_roundPack_of_legal {p : RqWord} {m : RoundingMode} (hsig : legalSig (rqSig p) = true)
    (hm : modeOfCode roundOdd rm = some m) :
    decode roundOdd rm (.roundPack p) = .ok (instrOfMode m (rqSign p) (rqExp p) (rqSig p)) := by
  simp only [decode, hsig, hm, if_true]

/-- Everything the decoder accepts: a `CQ` request with operands of one sign, or an `RQ` request with a legal significand under
a code that selects a mode. -/
theorem decode_eq_ok {r : Request} {i : Instr} (h : decode roundOdd rm r = .ok i) :
    (∃ q, r = .combine q ∧ sameSign (cqA q) (cqB q) = true ∧ i = instrOfClass (classify (cqA q) (cqB q)) (cqA q) (cqB q)) ∨
    (∃ q, r = .addMags q ∧ sameSign (cqA q) (cqB q) = true ∧ i = .addmagsF32 (cqA q) (cqB q)) ∨
    (∃ p m, r = .roundPack p ∧ legalSig (rqSig p) = true ∧ modeOfCode roundOdd rm = some m ∧
      i = instrOfMode m (rqSign p) (rqExp p) (rqSig p)) := by
  cases r with
  | combine q =>
    simp only [decode] at h
    split at h
    · rename_i hs
      injection h with h
      exact .inl ⟨q, rfl, hs, h.symm⟩
    · cases h
  | addMags q =>
    simp only [decode] at h
    split at h
    · rename_i hs
      injection h with h
      exact .inr (.inl ⟨q, rfl, hs, h.symm⟩)
    · cases h
  | roundPack p =>
    simp only [decode] at h
    split at h
    · rename_i hsig
      split at h
      · rename_i m hm
        injection h with h
        exact .inr (.inr ⟨p, m, rfl, hsig, hm, h.symm⟩)
      · cases h
    · cases h

end Decode

/-- Settles O8: by family; the packed fields come back, and for a `CMB.*` its class is the one the tests find
(`eq_classify_of_inClass`). -/
theorem decodeOfEncodeIsTheInstruction : Obligations.DecodeOfEncodeIsTheInstruction := by
  intro roundOdd rm i hwf hmode
  rcases instr_cases i with ⟨c, a, b, rfl⟩ | ⟨m, sign, exp, sig, rfl⟩ | ⟨a, b, rfl⟩
  case inl =>
    rw [wellFormed_instrOfClass, Bool.and_eq_true] at hwf
    obtain ⟨hs, hc⟩ := hwf
    have hsq : sameSign (cqA (cqPack a b)) (cqB (cqPack a b)) = true := by rwa [cqA_cqPack, cqB_cqPack]
    rw [encode_instrOfClass, decode_combine_of_sameSign hsq, cqA_cqPack, cqB_cqPack, ← eq_classify_of_inClass hc]
  case inr.inl =>
    have hsig : legalSig (rqSig (rqPack sign exp sig)) = true := by rwa [rqSig_rqPack, ← wellFormed_instrOfMode m sign exp]
    have hm : modeOfCode roundOdd rm = some m := hmode m (mode_instrOfMode m sign exp sig)
    rw [encode_instrOfMode, decode_roundPack_of_legal hsig hm, rqSign_rqPack, rqExp_rqPack, rqSig_rqPack]
  case inr.inr =>
    have hsq : sameSign (cqA (cqPack a b)) (cqB (cqPack a b)) = true := by rwa [cqA_cqPack, cqB_cqPack]
    rw [encode, decode_addMags_of_sameSign hsq, cqA_cqPack, cqB_cqPack]

/-- Settles O9: each of the three ways the decoder accepts (`decode_eq_ok`) packs the fields it cut. -/
theorem encodeOfDecodeIsTheRequest : Obligations.EncodeOfDecodeIsTheRequest := by
  intro roundOdd rm r i h
  rcases decode_eq_ok h with ⟨q, rfl, hs, rfl⟩ | ⟨q, rfl, hs, rfl⟩ | ⟨p, m, rfl, hsig, hm, rfl⟩
  case inl =>
    rw [encode_instrOfClass, cqPack_cqA_cqB, wellFormed_instrOfClass, hs, inClass_classify, mode_instrOfClass]
    exact ⟨rfl, rfl, fun _ hnone => nomatch hnone⟩
  case inr.inl =>
    rw [encode, cqPack_cqA_cqB]
    exact ⟨rfl, hs, fun _ hnone => nomatch hnone⟩
  case inr.inr =>
    rw [encode_instrOfMode, rqPack_fields, wellFormed_instrOfMode, mode_instrOfMode, hm]
    exact ⟨rfl, hsig, fun _ heq => heq⟩


/-! ### The requests without a meaning (R46) -/

theorem signOf_cqA (q : CqWord) : signOf (cqA q) = q.getLsbD 63 := by
  simp [signOf_eq, cqA]

theorem signOf_cqB (q : CqWord) : signOf (cqB q) = q.getLsbD 31 := by
  simp [signOf_eq, cqB]

theorem sameSign_cq_iff (q : CqWord) : sameSign (cqA q) (cqB q) = true ↔ q.getLsbD 63 = q.getLsbD 31 := by
  rw [sameSign_iff, signOf_cqA, signOf_cqB]

theorem legalSig_rqSig_iff (p : RqWord) :
    legalSig (rqSig p) = true ↔ 2 ^ 30 ≤ p.toNat % 2 ^ 32 ∧ p.toNat % 2 ^ 32 < 2 ^ 31 := by
  rw [legalSig_iff, toNat_rqSig]

/-- The reserved codes of rule R46. -/
theorem modeOfCode_eq_none_iff (roundOdd : Bool) (rm : RmCode) :
    modeOfCode roundOdd rm = none ↔ rm = 5 ∨ rm = 7 ∨ (rm = 6 ∧ roundOdd = false) := by
  revert roundOdd rm
  decide

section Rejections
variable (roundOdd : Bool) (rm : RmCode)

theorem decode_combine_eq_mixedSigns_iff (q : CqWord) :
    decode roundOdd rm (.combine q) = .error .mixedSigns ↔ ¬ sameSign (cqA q) (cqB q) = true := by
  by_cases hs : sameSign (cqA q) (cqB q) = true <;> simp [decode, hs]

theorem decode_addMags_eq_mixedSigns_iff (q : CqWord) :
    decode roundOdd rm (.addMags q) = .error .mixedSigns ↔ ¬ sameSign (cqA q) (cqB q) = true := by
  by_cases hs : sameSign (cqA q) (cqB q) = true <;> simp [decode, hs]

theorem decode_roundPack_eq_unnormalised_iff (p : RqWord) :
    decode roundOdd rm (.roundPack p) = .error .unnormalisedSignificand ↔ ¬ legalSig (rqSig p) = true := by
  by_cases hsig : legalSig (rqSig p) = true
  case pos => cases hm : modeOfCode roundOdd rm <;> simp [decode, hsig, hm]
  case neg => simp [decode, hsig]

theorem decode_roundPack_eq_reserved_iff (p : RqWord) :
    decode roundOdd rm (.roundPack p) = .error .reservedRoundingMode ↔
      legalSig (rqSig p) = true ∧ modeOfCode roundOdd rm = none := by
  by_cases hsig : legalSig (rqSig p) = true
  case pos => cases hm : modeOfCode roundOdd rm <;> simp [decode, hsig, hm]
  case neg => simp [decode, hsig]

end Rejections

/-- Settles O10: what the decoder looks at (`sameSign`, `legalSig`, `modeOfCode`) in the bits of the request, and its answer in
each case. -/
theorem decoderRejectsExactlyTheUndefinedRequests : Obligations.DecoderRejectsExactlyTheUndefinedRequests := by
  intro roundOdd rm q p
  rw [decode_combine_eq_mixedSigns_iff, decode_addMags_eq_mixedSigns_iff, decode_roundPack_eq_unnormalised_iff,
    decode_roundPack_eq_reserved_iff, ← modeOfCode_eq_none_iff, ← legalSig_rqSig_iff, ne_eq, ← sameSign_cq_iff]
  refine ⟨Iff.rfl, Iff.rfl, fun hs => ?cq, Iff.rfl, Iff.rfl, fun hsig hm => ?rq⟩
  case cq => exact ⟨⟨_, decode_combine_of_sameSign hs⟩, _, decode_addMags_of_sameSign hs⟩
  case rq =>
    obtain ⟨m, hm⟩ := Option.ne_none_iff_exists'.mp hm
    exact ⟨_, decode_roundPack_of_legal hsig hm⟩

/-! ### The opcode table's fixed bits (section 5 of 30_encoding.md) -/

/-- Masking two numbers laid side by side masks each of them. -/
theorem sideBySide_and (x y k l : Nat) {n : Nat} (hy : y < 2 ^ n) (hl : l < 2 ^ n) :
    (x * 2 ^ n + y) &&& (k * 2 ^ n + l) = (x &&& k) * 2 ^ n + (y &&& l) := by
  have hyl : y &&& l < 2 ^ n := Nat.and_lt_two_pow y hl
  apply Nat.eq_of_testBit_eq
  intro i
  simp only [Nat.testBit_and, mul_comm _ (2 ^ n), Nat.testBit_two_pow_mul_add _ hy, Nat.testBit_two_pow_mul_add _ hl,
    Nat.testBit_two_pow_mul_add _ hyl]
  split <;> rfl

/-- A mask of `k` ones at position `i` keeps the field of `k` bits there. -/
theorem and_fieldMask (n i k : Nat) : n &&& (2 ^ k - 1) * 2 ^ i = n / 2 ^ i % 2 ^ k * 2 ^ i := by
  have hmask := sideBySide_and (n / 2 ^ i) (n % 2 ^ i) (2 ^ k - 1) 0 (Nat.mod_lt _ (Nat.two_pow_pos i)) (Nat.two_pow_pos i)
  rwa [Nat.div_add_mod', Nat.and_two_pow_sub_one_eq_mod, Nat.and_zero, Nat.add_zero, Nat.add_zero] at hmask

theorem toNat_and_expMask (w : Word) : w.toNat &&& 0x7F800000 = expOf w * 2 ^ 23 := by
  rw [expOf_eq]
  exact and_fieldMask w.toNat 23 8

theorem toNat_and_magnitudeMask (w : Word) : w.toNat &&& 0x7FFFFFFF = expOf w * 2 ^ 23 + fracOf w := by
  have hmask : w.toNat &&& 0x7FFFFFFF = w.toNat % 2 ^ 31 := Nat.and_two_pow_sub_one_eq_mod _ 31
  rw [hmask, expOf_eq, fracOf_eq]
  omega

/-- The mask of a `CQ` row is one mask for each operand. -/
theorem toNat_cqPack_and (a b : Word) (k : Nat) {l : Nat} (hl : l < 2 ^ 32) :
    (cqPack a b).toNat &&& (k * 2 ^ 32 + l) = (a.toNat &&& k) * 2 ^ 32 + (b.toNat &&& l) := by
  rw [toNat_cqPack, sideBySide_and _ _ _ _ b.isLt hl]

/-- A row's fixed bits are the exponent fields, or the whole magnitudes, that its class asks for. -/
theorem toNat_cqPack_and_mask {c : DispatchClass} {a b : Word} (hc : inClass c a b = true) :
    (cqPack a b).toNat &&& (tableRow (instrOfClass c a b)).mask = (tableRow (instrOfClass c a b)).value := by
  cases c
  all_goals simp only [inClass, Bool.and_eq_true, decide_eq_true_eq, beq_iff_eq] at hc
  case subsum =>
    obtain ⟨ha, hb⟩ := hc
    refine (toNat_cqPack_and a b 0x7F800000 (l := 0x7F800000) (by decide)).trans ?_
    rw [toNat_and_expMask, toNat_and_expMask, ha, hb]
    rfl
  case nanEq =>
    obtain ⟨⟨ha, hb⟩, -⟩ := hc
    refine (toNat_cqPack_and a b 0x7F800000 (l := 0x7F800000) (by decide)).trans ?_
    rw [toNat_and_expMask, toNat_and_expMask, ha, hb]
    rfl
  case infEq =>
    obtain ⟨⟨⟨ha, hb⟩, hfa⟩, hfb⟩ := hc
    refine (toNat_cqPack_and a b 0x7FFFFFFF (l := 0x7FFFFFFF) (by decide)).trans ?_
    rw [toNat_and_magnitudeMask, toNat_and_magnitudeMask, ha, hb, hfa, hfb]
    rfl
  case nanFarB =>
    obtain ⟨⟨-, hb⟩, -⟩ := hc
    refine (toNat_cqPack_and a b 0 (l := 0x7F800000) (by decide)).trans ?_
    rw [Nat.and_zero, toNat_and_expMask, hb]
    rfl
  case infFarB =>
    obtain ⟨⟨-, hb⟩, hfb⟩ := hc
    refine (toNat_cqPack_and a b 0 (l := 0x7FFFFFFF) (by decide)).trans ?_
    rw [Nat.and_zero, toNat_and_magnitudeMask, hb, hfb]
    rfl
  case nanFarA =>
    obtain ⟨⟨-, ha⟩, -⟩ := hc
    refine (toNat_cqPack_and a b 0x7F800000 (l := 0) (by decide)).trans ?_
    rw [Nat.and_zero, toNat_and_expMask, ha]
    rfl
  case infFarA =>
    obtain ⟨⟨-, ha⟩, hfa⟩ := hc
    refine (toNat_cqPack_and a b 0x7FFFFFFF (l := 0) (by decide)).trans ?_
    rw [Nat.and_zero, toNat_and_magnitudeMask, ha, hfa]
    rfl
  all_goals exact Nat.and_zero _

/-- The fixed bits 31:30 of an `RQ` request are the 01 of a legal significand. -/
theorem toNat_rqPack_and_mask {sig : Word} (m : RoundingMode) (sign : Bool) (exp : ExpPort) (hsig : legalSig sig = true) :
    (rqPack sign exp sig).toNat &&& (tableRow (instrOfMode m sign exp sig)).mask =
      (tableRow (instrOfMode m sign exp sig)).value := by
  obtain ⟨hlo, hhi⟩ := (legalSig_iff sig).mp hsig
  have htop : (rqPack sign exp sig).toNat / 2 ^ 30 % 2 ^ 2 = 1 := by
    rw [toNat_rqPack]
    omega
  have hmask := and_fieldMask (rqPack sign exp sig).toNat 30 2
  rw [htop] at hmask
  cases m <;> exact hmask

theorem width_encode (i : Instr) : (encode i).width = (tableRow i).width := by cases i <;> rfl

/-- Settles O11: the width by inspection of the rows, the fixed bits by family. -/
theorem encodedRequestMatchesItsTableRow : Obligations.EncodedRequestMatchesItsTableRow := by
  intro i hwf
  refine ⟨width_encode i, ?_⟩
  rcases instr_cases i with ⟨c, a, b, rfl⟩ | ⟨m, sign, exp, sig, rfl⟩ | ⟨a, b, rfl⟩
  case inl =>
    rw [wellFormed_instrOfClass, Bool.and_eq_true] at hwf
    obtain ⟨-, hc⟩ := hwf
    rw [encode_instrOfClass]
    exact toNat_cqPack_and_mask hc
  case inr.inl =>
    rw [wellFormed_instrOfMode] at hwf
    rw [encode_instrOfMode]
    exact toNat_rqPack_and_mask m sign exp hwf
  case inr.inr => exact Nat.and_zero _

/-- Settles O12: a computation of the decoder on each word. -/
theorem sampleRequestWordsDecode : Obligations.SampleRequestWordsDecode := by
  unfold Obligations.SampleRequestWordsDecode
  decide

end Sys2Proof.Machine
end

section
/-! The sticky shift (R8): its bits, and how its result compares with even numbers. -/

namespace Sys2Proof.Machine

open Sys2Proof

theorem stickyShiftRight_testBit_succ (v c k : Nat) : (stickyShiftRight v c).testBit (k + 1) = v.testBit (c + k + 1) := by
  have hfolded : (if v % 2 ^ c = 0 then 0 else 1 : Nat).testBit (k + 1) = false := by
    split
    case isTrue => exact Nat.zero_testBit _
    case isFalse => simp [Nat.testBit_succ]
  rw [stickyShiftRight, Nat.testBit_or, hfolded, Bool.or_false, Nat.testBit_shiftRight, Nat.add_assoc]

/-- Some bit below position `c` is 1 exactly when the discarded part is nonzero. -/
theorem mod_two_pow_ne_zero_iff (v c : Nat) : v % 2 ^ c ≠ 0 ↔ ∃ k, k < c ∧ v.testBit k = true := by
  constructor
  · intro hne
    obtain ⟨k, hk⟩ := Nat.exists_testBit_of_ne_zero hne
    rw [Nat.testBit_mod_two_pow, Bool.and_eq_true, decide_eq_true_eq] at hk
    exact ⟨k, hk⟩
  · rintro ⟨k, hk, hbit⟩ hzero
    have hmod : (v % 2 ^ c).testBit k = true := by rw [Nat.testBit_mod_two_pow, hbit, decide_eq_true hk, Bool.and_self]
    rw [hzero, Nat.zero_testBit] at hmod
    cases hmod

theorem stickyShiftRight_testBit_zero (v c : Nat) :
    (stickyShiftRight v c).testBit 0 = true ↔ ∃ k, k ≤ c ∧ v.testBit k = true := by
  have hfolded : (if v % 2 ^ c = 0 then 0 else 1 : Nat).testBit 0 = true ↔ v % 2 ^ c ≠ 0 := by
    by_cases h : v % 2 ^ c = 0 <;> simp [h]
  rw [stickyShiftRight, Nat.testBit_or, Bool.or_eq_true, hfolded, mod_two_pow_ne_zero_iff, Nat.testBit_shiftRight, Nat.add_zero]
  constructor
  · rintro (hc | ⟨k, hk, hbit⟩)
    · exact ⟨c, le_rfl, hc⟩
    · exact ⟨k, hk.le, hbit⟩
  · rintro ⟨k, hk, hbit⟩
    obtain hlt | rfl := hk.lt_or_eq
    · exact .inr ⟨k, hlt, hbit⟩
    · exact .inl hbit

theorem stickyShiftRight_of_lt {v c : Nat} (h : v < 2 ^ c) : stickyShiftRight v c = if v = 0 then 0 else 1 := by
  rw [stickyShiftRight, Nat.shiftRight_eq_div_pow, Nat.div_eq_of_lt h, Nat.mod_eq_of_lt h, Nat.zero_or]

/-- Settles O4: the two kinds of bit by their lemmas; a count past the leading bit keeps the folded bit alone. -/
theorem stickyShiftKeepsAnyDiscardedOne : Obligations.StickyShiftKeepsAnyDiscardedOne := by
  intro v c
  refine ⟨stickyShiftRight_testBit_succ v c, stickyShiftRight_testBit_zero v c, stickyShiftRight_zero v,
    stickyShiftRight_of_lt, fun hv hc => stickyShiftRight_of_lt ?_⟩
  calc v < 2 ^ 31 := hv
    _ ≤ 2 ^ c := Nat.pow_le_pow_right (by decide) hc

end Sys2Proof.Machine
end

section
/-! Stage C's answers class by class (40_combiner.md): infinities, equal exponents, aligned sums, the range of its triples (R65),
and its symmetry (R68). -/

namespace Sys2Proof.Machine

open Sys2Proof

/-! ### Infinities (R55, R59, R61) -/

theorem packWord_inf (sign : Bool) : packWord sign 255 0 = if sign then 0xFF800000 else 0x7F800000 := by
  cases sign <;> rfl

/-- An infinity is determined by its sign. -/
theorem eq_inf_of_signOf_eq {s : Bool} {w : Word} (hs : s = signOf w) (he : expOf w = 255) (hf : fracOf w = 0) :
    w = if s then 0xFF800000 else 0x7F800000 := by
  rw [← packWord_inf, packWord_inf_eq hs he hf]

/-- Settles O15: both paths pack the infinity of the sign of `uiA`, which the far operand is by its fields. -/
theorem infinityPlusFiniteAnswersTheSignedInfinity : Obligations.InfinityPlusFiniteAnswersTheSignedInfinity := by
  intro s a b hs
  refine ⟨fun ha hb hf => ⟨?farB, eq_inf_of_signOf_eq hs hb hf⟩, fun hb ha hf => ⟨?farA, eq_inf_of_signOf_eq rfl ha hf⟩⟩
  all_goals rw [← packWord_inf]
  case farB =>
    have hc : inClass .infFarB a b = true := by simp [inClass, ha, hb, hf]
    exact exec_instrOfClass_of_inClass s hs hc
  case farA =>
    have hc : inClass .infFarA a b = true := by simp [inClass, ha, hb, hf]
    exact exec_instrOfClass_of_inClass s hs hc

/-- Settles O16: the path returns `uiA`, and both operands are the infinity of the common sign. -/
theorem equalInfinitiesAnswerEitherOperand : Obligations.EqualInfinitiesAnswerEitherOperand := by
  intro s a b hs ha hb hfa hfb
  have hc : inClass .infEq a b = true := by simp [inClass, ha, hb, hfa, hfb]
  refine ⟨exec_instrOfClass_of_inClass s hs hc, ?_⟩
  rw [← packWord_inf_eq hs hb hfb, packWord_inf_eq rfl ha hfa]

/-! ### Equal exponents (R56, R57) -/

theorem wordOf_eq_packWord (sign : Bool) (e f : Nat) : wordOf sign e f = packWord sign e f := rfl

/-- Settles O17: `pathEqExact_eq_early` gives the word. -/
theorem equalExponentExactSumIsPackedOneBinadeUp : Obligations.EqualExponentExactSumIsPackedOneBinadeUp := by
  intro s a b hs heq hlo hhi heven
  have hc : inClass .eqExact a b = true := by simp [inClass, ← heq, hlo, hhi, heven]
  rw [wordOf_eq_packWord, ← pathEqExact_eq_early]
  exact exec_instrOfClass_of_inClass s hs hc

theorem pathEqRound_eq_round (a b : Word) :
    pathEqRound a b = .round (signOf a) (expOf a) (BitVec.ofNat 32 ((2 ^ 24 + fracOf a + fracOf b) * 64)) := by
  rw [pathEqRound, Nat.shiftLeft_eq]
  rfl

theorem eqRoundSum_lt (a b : Word) : (2 ^ 24 + fracOf a + fracOf b) * 64 < 2 ^ 31 := by
  have hfa := fracOf_lt a
  have hfb := fracOf_lt b
  omega

/-- Settles O18: `pathEqRound_eq_round` gives the triple; two fractions of 23 bits stay within the sum's binade. -/
theorem equalExponentSumGoesToRounding : Obligations.EqualExponentSumGoesToRounding := by
  intro s a b hs heq hlo hhi hround
  have hc : inClass .eqRound a b = true := by simpa [inClass, ← heq, hlo, hhi] using hround
  rw [← pathEqRound_eq_round]
  exact ⟨exec_instrOfClass_of_inClass s hs hc, eqRoundSum_lt a b⟩

/-! ### Aligned sums (R62 to R64) -/

/-- The near operand of rule R62 at the scale of the sum, as a product. -/
theorem nearPlaced_eq (e f : Nat) : nearPlaced e f = if e = 0 then 2 * f * 64 else (2 ^ 23 + f) * 64 := by
  rw [nearPlaced, Nat.shiftLeft_eq, pre, impl]
  split_ifs <;> omega

theorem nearPlaced_lt {e f : Nat} (hf : f < 2 ^ 23) : nearPlaced e f < 2 ^ 30 := by
  rw [nearPlaced_eq]
  split <;> omega

/-- The sum of rule R62 before it is renormalised. -/
def alignedSum (expFar fracFar expNear fracNear : Nat) : Nat :=
  (2 ^ 23 + fracFar) * 64 + stickyShiftRight (nearPlaced expNear fracNear) (expFar - expNear)

theorem alignSum_eq (sign : Bool) (eF fF eN fN : Nat) :
    alignSum sign eF fF eN fN =
      if alignedSum eF fF eN fN < 2 ^ 30 then .round sign ((eF : Int) - 1) (BitVec.ofNat 32 (2 * alignedSum eF fF eN fN))
      else .round sign eF (BitVec.ofNat 32 (alignedSum eF fF eN fN)) := by
  have hsum : impl + fF <<< pre + stickyShiftRight (nearPlaced eN fN) (eF - eN) = alignedSum eF fF eN fN := by
    rw [alignedSum, Nat.shiftLeft_eq, pre, impl]
    omega
  simp only [alignSum, hsum]
  rw [Nat.shiftLeft_eq, mul_comm _ (2 ^ 1)]
  rfl

/-- A near operand shifted by at least one place adds less than half the sum's binade. -/
theorem alignedSum_range {eF fF eN fN : Nat} (he : eN < eF) (hF : fF < 2 ^ 23) (hN : fN < 2 ^ 23) :
    2 ^ 29 ≤ alignedSum eF fF eN fN ∧ alignedSum eF fF eN fN < 2 ^ 31 := by
  have hnear : stickyShiftRight (nearPlaced eN fN) (eF - eN) < 2 ^ 29 :=
    stickyShiftRight_lt (Nat.sub_pos_of_lt he) (nearPlaced_lt hN)
  rw [alignedSum]
  omega

section AlignedAnswer
variable (sign : Bool) {eF fF eN fN : Nat}

theorem alignSum_of_lt (h : alignedSum eF fF eN fN < 2 ^ 30) :
    alignSum sign eF fF eN fN = .round sign ((eF : Int) - 1) (BitVec.ofNat 32 (2 * alignedSum eF fF eN fN)) := by
  rw [alignSum_eq, if_pos h]

theorem alignSum_of_le (h : 2 ^ 30 ≤ alignedSum eF fF eN fN) :
    alignSum sign eF fF eN fN = .round sign eF (BitVec.ofNat 32 (alignedSum eF fF eN fN)) := by
  rw [alignSum_eq, if_neg (Nat.not_lt.mpr h)]

end AlignedAnswer

/-- What an operation that answers `alignSum` answers: the sum with the exponent it stands at, renormalised if it fell short. -/
theorem alignedAnswer {o : Host.Outcome State Fault Refusal} {s : State} {sign : Bool} {eF fF eN fN : Nat}
    (ho : o = .next (afterCO s (alignSum sign eF fF eN fN))) (he : eN < eF) (hF : fF < 2 ^ 23) (hN : fN < 2 ^ 23) :
    (alignedSum eF fF eN fN < 2 ^ 30 →
      o = .next (afterCO s (.round sign ((eF : Int) - 1) (BitVec.ofNat 32 (2 * alignedSum eF fF eN fN))))) ∧
    (2 ^ 30 ≤ alignedSum eF fF eN fN →
      o = .next (afterCO s (.round sign eF (BitVec.ofNat 32 (alignedSum eF fF eN fN))))) ∧
    2 ^ 29 ≤ alignedSum eF fF eN fN ∧ alignedSum eF fF eN fN < 2 ^ 31 := by
  rw [ho]
  exact ⟨fun h => by rw [alignSum_of_lt sign h], fun h => by rw [alignSum_of_le sign h], alignedSum_range he hF hN⟩

/-- Settles O19: `alignedAnswer` with B far. -/
theorem alignmentWithBFarAnswersTheAlignedSum : Obligations.AlignmentWithBFarAnswersTheAlignedSum := by
  intro s a b hs hlt hle
  have hc : inClass .alignBFar a b = true := by simp [inClass, hlt, hle]
  rw [← nearPlaced_eq]
  exact alignedAnswer (exec_instrOfClass_of_inClass s hs hc) hlt (fracOf_lt b) (fracOf_lt a)

/-- Settles O20: `alignedAnswer` with A far. -/
theorem alignmentWithAFarAnswersTheAlignedSum : Obligations.AlignmentWithAFarAnswersTheAlignedSum := by
  intro s a b hs hlt hle
  have hc : inClass .alignAFar a b = true := by simp [inClass, hlt, hle]
  rw [← nearPlaced_eq]
  exact alignedAnswer (exec_instrOfClass_of_inClass s hs hc) hlt (fracOf_lt a) (fracOf_lt b)

/-! ### The range of a triple (R65) -/

/-- A triple as stage R may be given it by stage C: exponent 0 to 254, the leading bit of the significand at bit 30. -/
structure TripleOk (exp : Int) (sig : Word) : Prop where
  exp_nonneg : 0 ≤ exp
  exp_le : exp ≤ 254
  sig_lo : 2 ^ 30 ≤ sig.toNat
  sig_hi : sig.toNat < 2 ^ 31

theorem TripleOk.ofNat {exp : Int} {n : Nat} (h0 : 0 ≤ exp) (h1 : exp ≤ 254) (hlo : 2 ^ 30 ≤ n) (hhi : n < 2 ^ 31) :
    TripleOk exp (BitVec.ofNat 32 n) := by
  have hn : (BitVec.ofNat 32 n).toNat = n := (BitVec.toNat_ofNat _ _).trans (Nat.mod_eq_of_lt (by omega))
  exact ⟨h0, h1, hn.symm ▸ hlo, hn.symm ▸ hhi⟩

theorem tripleOk_of_alignSum {sign sign' : Bool} {eF fF eN fN : Nat} {exp : Int} {sig : Word}
    (he : eN < eF) (hle : eF ≤ 254) (hF : fF < 2 ^ 23) (hN : fN < 2 ^ 23)
    (h : alignSum sign eF fF eN fN = .round sign' exp sig) : TripleOk exp sig := by
  obtain ⟨hlo, hhi⟩ := alignedSum_range he hF hN
  obtain hlt | hge := Nat.lt_or_ge (alignedSum eF fF eN fN) (2 ^ 30)
  · injection (alignSum_of_lt sign hlt).symm.trans h with _ hexp hsig
    rw [← hexp, ← hsig]
    exact .ofNat (by omega) (by omega) (by omega) (by omega)
  · injection (alignSum_of_le sign hge).symm.trans h with _ hexp hsig
    rw [← hexp, ← hsig]
    exact .ofNat (by omega) (by omega) hge hhi

/-- The inversion lemma of the `ROUND` exit. -/
theorem tripleOk_of_pathOf_eq_round {c : DispatchClass} {a b : Word} {sign : Bool} {exp : Int} {sig : Word}
    (hc : inClass c a b = true) (hp : pathOf c a b = .round sign exp sig) : TripleOk exp sig := by
  cases c
  all_goals simp only [inClass, Bool.and_eq_true, Bool.or_eq_true, decide_eq_true_eq, beq_iff_eq, bne_iff_ne] at hc
  case eqRound =>
    obtain ⟨⟨-, hle⟩, -⟩ := hc
    injection (pathEqRound_eq_round a b).symm.trans hp with _ hexp hsig
    rw [← hexp, ← hsig]
    exact .ofNat (by omega) (by omega) (by omega) (eqRoundSum_lt a b)
  case alignBFar =>
    obtain ⟨hlt, hle⟩ := hc
    exact tripleOk_of_alignSum hlt hle (fracOf_lt b) (fracOf_lt a) hp
  case alignAFar =>
    obtain ⟨hlt, hle⟩ := hc
    exact tripleOk_of_alignSum hlt hle (fracOf_lt a) (fracOf_lt b) hp
  all_goals cases hp

theorem tripleOk_of_combine_eq_round {a b : Word} {sign : Bool} {exp : Int} {sig : Word}
    (h : combine a b = .round sign exp sig) : TripleOk exp sig :=
  tripleOk_of_pathOf_eq_round (inClass_classify a b) (combine_eq_pathOf a b ▸ h)

/-- Settles O21: the inversion lemma of the `ROUND` exit. -/
theorem stageCTriplesLieInTheRounderDomain : Obligations.StageCTriplesLieInTheRounderDomain := by
  intro a b sign exp sig h
  obtain ⟨h0, h1, hlo, hhi⟩ := tripleOk_of_combine_eq_round h
  exact ⟨h0, h1, hlo, hhi⟩

/-! ### Symmetry (R68) -/

/-- The class of the pair in the other order. -/
def mirrorClass : DispatchClass → DispatchClass
  | .subsum => .subsum
  | .nanEq => .nanEq
  | .infEq => .infEq
  | .eqExact => .eqExact
  | .eqRound => .eqRound
  | .nanFarB => .nanFarA
  | .infFarB => .infFarA
  | .nanFarA => .nanFarB
  | .infFarA => .infFarB
  | .alignBFar => .alignAFar
  | .alignAFar => .alignBFar

theorem inClass_mirrorClass {c : DispatchClass} {a b : Word} (hc : inClass c a b = true) :
    inClass (mirrorClass c) b a = true := by
  cases c
  all_goals
    simp only [mirrorClass, inClass, Bool.and_eq_true, Bool.or_eq_true, decide_eq_true_eq, beq_iff_eq, bne_iff_ne] at hc ⊢
    omega

theorem subsum_comm {a b : Word} (hs : signOf a = signOf b) (ha : expOf a = 0) (hb : expOf b = 0) :
    a + (b &&& 0x007FFFFF) = b + (a &&& 0x007FFFFF) := by
  apply BitVec.eq_of_toNat_eq
  rw [toNat_subsum ha, toNat_subsum hb, ← pack_fields a, ← pack_fields b, hs, ha, hb, pack, pack]
  omega

/-- Both orders run mirrored paths on the same numbers. -/
theorem pathOf_mirrorClass {c : DispatchClass} {a b : Word} (hs : signOf a = signOf b) (hc : inClass c a b = true) :
    pathOf (mirrorClass c) b a = pathOf c a b := by
  cases c
  all_goals simp only [inClass, Bool.and_eq_true, Bool.or_eq_true, decide_eq_true_eq, beq_iff_eq, bne_iff_ne] at hc
  case nanEq | nanFarB | nanFarA => rfl
  case subsum =>
    obtain ⟨ha, hb⟩ := hc
    rw [mirrorClass, pathOf, pathSubsum_eq_early, pathSubsum_eq_early, subsum_comm hs ha hb]
  case infEq =>
    obtain ⟨⟨⟨ha, hb⟩, hfa⟩, hfb⟩ := hc
    rw [mirrorClass, (packWord_inf_eq hs hb hfb).symm.trans (packWord_inf_eq rfl ha hfa)]
  case eqExact =>
    obtain ⟨⟨⟨-, heq⟩, -⟩, -⟩ := hc
    rw [mirrorClass, pathOf, pathEqExact_eq_early, pathEqExact_eq_early, hs, heq, Nat.add_comm (fracOf b)]
  case eqRound =>
    obtain ⟨⟨⟨-, heq⟩, -⟩, -⟩ := hc
    rw [mirrorClass, pathOf, pathEqRound_eq_round, pathEqRound_eq_round, hs, heq, Nat.add_right_comm]
  case infFarB | infFarA => rw [mirrorClass, pathOf, pathOf, pathInfFarA, pathInfFarB, hs]
  case alignBFar | alignAFar => rw [mirrorClass, pathOf, pathOf, pathAlignAFar, pathAlignBFar, hs]

theorem combine_comm {a b : Word} (hs : signOf a = signOf b) : combine a b = combine b a := by
  have hc := inClass_classify a b
  rw [combine_eq_pathOf, combine_eq_pathOf, ← eq_classify_of_inClass (inClass_mirrorClass hc), pathOf_mirrorClass hs hc]

/-- Settles O24: the first clause by the mirrored class, the second by the NAN exit, which takes no notice of the order. -/
theorem stageCIsSymmetricForNonNanOperands : Obligations.StageCIsSymmetricForNonNanOperands := by
  intro a b hs
  refine ⟨fun _ _ => combine_comm hs, fun hn => ?_⟩
  rw [combine_eq_nan_iff, combine_eq_nan_iff]
  exact ⟨hn, hn.symm⟩

end Sys2Proof.Machine
end

section
/-! Stage R (41_rounder_packer.md): its flags bit by bit, and its answer in closed form under every mode. -/

namespace Sys2Proof.Machine

open Sys2Proof

/-! ### Flags, bit by bit (R75, R78) -/

theorem inexactFlag_getLsbD_zero (bits : Nat) : (inexactFlag bits).getLsbD 0 = decide (bits ≠ 0) := by
  by_cases h : bits = 0 <;> simp [inexactFlag, flagNX, h]

theorem inexactFlag_getLsbD_one (bits : Nat) : (inexactFlag bits).getLsbD 1 = false := by
  by_cases h : bits = 0 <;> simp [inexactFlag, flagNX, h]

theorem underflowFlag_getLsbD_zero (tiny : Bool) (bits : Nat) : (underflowFlag tiny bits).getLsbD 0 = false := by
  rw [underflowFlag]
  split
  case isTrue => rfl
  case isFalse => rfl

theorem underflowFlag_getLsbD_one (tiny : Bool) (bits : Nat) :
    (underflowFlag tiny bits).getLsbD 1 = (tiny && bits != 0) := by
  rw [underflowFlag]
  split
  case isTrue h => rw [h]; rfl
  case isFalse h => rw [Bool.eq_false_of_not_eq_true h]; rfl

theorem isTiny_iff (t : Tininess) (exp : Int) (sig inc : Nat) :
    isTiny t exp sig inc = true ↔ t = .before ∨ exp < -1 ∨ sig + inc < 2 ^ 31 := by
  simp [isTiny, or_assoc]

/-- Rule R75's step 3: a negative exponent. -/
theorem roundPack_of_neg {exp : Int} (hexp : exp < 0) (m : RoundingMode) (t : Tininess) (sign : Bool) (sig : Word) :
    roundPack m t sign exp sig =
      roundTail m sign 0 (stickyShiftRight sig.toNat (-exp).toNat) (stickyShiftRight sig.toNat (-exp).toNat % 128)
        (underflowFlag (isTiny t exp sig.toNat (roundIncrement m sign)) (stickyShiftRight sig.toNat (-exp).toNat % 128)) := by
  rw [roundPack, if_pos hexp]
  rfl

theorem roundTail_raise (m : RoundingMode) (sign : Bool) (exp sig bits : Nat) (raised : FlagSet) :
    (roundTail m sign exp sig bits raised).raise = raised ||| inexactFlag bits := rfl

theorem roundTail_raise_getLsbD_zero (m : RoundingMode) (sign : Bool) (exp sig bits : Nat) (raised : FlagSet) :
    (roundTail m sign exp sig bits raised).raise.getLsbD 0 = (raised.getLsbD 0 || decide (bits ≠ 0)) := by
  rw [roundTail_raise, BitVec.getLsbD_or, inexactFlag_getLsbD_zero]

theorem roundTail_raise_getLsbD_one (m : RoundingMode) (sign : Bool) (exp sig bits : Nat) (raised : FlagSet) :
    (roundTail m sign exp sig bits raised).raise.getLsbD 1 = raised.getLsbD 1 := by
  rw [roundTail_raise, BitVec.getLsbD_or, inexactFlag_getLsbD_one, Bool.or_false]

/-- Stage R raises UF for no exponent of 0 or more. -/
theorem roundPack_raise_getLsbD_one_of_nonneg {exp : Int} (hexp : 0 ≤ exp) (m : RoundingMode) (t : Tininess) (sign : Bool)
    (sig : Word) : (roundPack m t sign exp sig).raise.getLsbD 1 = false := by
  by_cases hover : overflows m sign exp sig.toNat = true
  case pos =>
    rw [roundPack_of_overflows hexp t hover]
    exact (by decide : overflowFlags.getLsbD 1 = false)
  case neg => rw [roundPack_of_not_overflows hexp t hover, roundTail_raise_getLsbD_one]; rfl

theorem roundPack_tininess_of_nonneg {exp : Int} (hexp : 0 ≤ exp) (m : RoundingMode) (t t' : Tininess) (sign : Bool) (sig : Word) :
    roundPack m t sign exp sig = roundPack m t' sign exp sig := by
  rw [roundPack, roundPack, if_neg (Int.not_lt.mpr hexp), if_neg (Int.not_lt.mpr hexp)]

/-- The sets of stage R hold NX wherever they hold UF. -/
theorem stageRRaises_nx_of_uf : ∀ f ∈ stageRRaises, f.getLsbD 1 = true → f.getLsbD 0 = true := by decide

/-- Settles O33: for a negative exponent UF is `underflowFlag`'s, for the others it is never raised. -/
theorem underflowIsRaisedWhenTinyAndInexact : Obligations.UnderflowIsRaisedWhenTinyAndInexact := by
  intro m t sign exp sig _ _
  refine ⟨?_, stageRRaises_nx_of_uf _ (roundPack_raise_mem m t sign exp sig)⟩
  by_cases hexp : exp < 0
  case pos =>
    rw [roundPack_of_neg hexp, roundTail_raise_getLsbD_one, underflowFlag_getLsbD_one, Bool.and_eq_true, isTiny_iff, bne_iff_ne]
    exact (and_iff_right hexp).symm
  case neg =>
    rw [roundPack_raise_getLsbD_one_of_nonneg (Int.not_lt.mp hexp)]
    exact ⟨fun hset => (Bool.false_ne_true hset).elim, fun ⟨hneg, _⟩ => absurd hneg hexp⟩

/-- Settles O34: off the overflow path the answer is that of `roundTail`, whose step 5 alone raises NX. -/
theorem inexactFollowsTheRoundBits : Obligations.InexactFollowsTheRoundBits := by
  intro m t sign exp sig _ _
  refine ⟨fun hexp => ?negative, fun hexp hwithin => ?nonnegative⟩
  case negative =>
    rw [roundPack_of_neg hexp, roundTail_raise_getLsbD_zero, underflowFlag_getLsbD_zero, Bool.false_or, decide_eq_true_eq]
  case nonnegative =>
    rw [← overflows_iff] at hwithin
    rw [roundPack_of_not_overflows hexp t hwithin, roundTail_raise_getLsbD_zero, Bool.or_eq_true, decide_eq_true_eq]
    exact or_iff_right Bool.false_ne_true

/-- Settles O35: the list `stageRRaises` written out. -/
theorem roundPackRaisesOneOfFourFlagSets : Obligations.RoundPackRaisesOneOfFourFlagSets := by
  intro m t sign exp sig
  simpa only [stageRRaises, List.mem_cons, List.not_mem_nil, or_false] using roundPack_raise_mem m t sign exp sig

/-- What `underflowFlag` adds is UF and nothing else. -/
theorem underflowFlag_or_inexactFlag_or_flagUF (tiny : Bool) (bits : Nat) :
    underflowFlag tiny bits ||| inexactFlag bits ||| flagUF = inexactFlag bits ||| flagUF := by
  by_cases hb : bits = 0 <;> cases tiny <;> simp [underflowFlag, inexactFlag, flagUF, flagNX, hb]

/-- Settles O37: the tininess mode is read by `isTiny` alone, which only a negative exponent asks. -/
theorem tininessModeAffectsOnlyTheUnderflowFlag : Obligations.TininessModeAffectsOnlyTheUnderflowFlag := by
  intro m sign exp sig
  by_cases hexp : exp < 0
  case pos =>
    simp only [roundPack_of_neg hexp]
    refine ⟨rfl, ?flags, ?underflow, fun hnonneg => absurd hexp (Int.not_lt.mpr hnonneg)⟩
    case flags =>
      rw [roundTail_raise, roundTail_raise, underflowFlag_or_inexactFlag_or_flagUF, underflowFlag_or_inexactFlag_or_flagUF]
    case underflow =>
      rw [roundTail_raise_getLsbD_one, roundTail_raise_getLsbD_one, underflowFlag_getLsbD_one, underflowFlag_getLsbD_one]
      simp [isTiny]
  case neg =>
    rw [roundPack_tininess_of_nonneg (Int.not_lt.mp hexp) m .before .after]
    exact ⟨rfl, rfl, id, fun _ => rfl⟩

/-- Settles O25: the table itself. -/
theorem roundIncrementFollowsTheModeTable : Obligations.RoundIncrementFollowsTheModeTable := by
  unfold Obligations.RoundIncrementFollowsTheModeTable
  decide

/-! ### The closed form (R83 to R88) -/

/-- What a mode makes of a significand whose kept part is `t` and whose round bits are `b` (section 3 of
41_rounder_packer.md). -/
def modeRound (m : RoundingMode) (sign : Bool) : Nat → Nat → Nat :=
  match m with
  | .rne => fun t b => if b < 0x40 then t else if 0x40 < b then t + 1 else if t % 2 = 0 then t else t + 1
  | .rmm => fun t b => if b < 0x40 then t else t + 1
  | .rtz => fun t _ => t
  | .rdn => fun t b => if sign = true ∧ b ≠ 0 then t + 1 else t
  | .rup => fun t b => if sign = false ∧ b ≠ 0 then t + 1 else t
  | .rod => fun t b => if b = 0 then t else t ||| 1

theorem modeRound_zero (m : RoundingMode) (sign : Bool) (t : Nat) : modeRound m sign t 0 = t := by
  cases m <;> simp [modeRound]

/-- Every mode keeps the kept part or goes to the next number. -/
theorem modeRound_cases (m : RoundingMode) (sign : Bool) (t b : Nat) : modeRound m sign t b = t ∨ modeRound m sign t b = t + 1 := by
  cases m
  case rtz => exact .inl rfl
  case rod => simp only [modeRound, or_one_eq]; split <;> omega
  all_goals simp only [modeRound]; split_ifs <;> simp

/-- Rounding up to the next binade is what adding the increment reaches (R72, R75, R76). -/
theorem modeRound_lt_iff (m : RoundingMode) (sign : Bool) {v : Nat} (hv : v < 2 ^ 31) :
    modeRound m sign (v / 128) (v % 128) < 2 ^ 24 ↔ v + roundIncrement m sign < 2 ^ 31 := by
  cases m
  case rne => simp only [modeRound, roundIncrement]; split_ifs <;> omega
  case rmm => simp only [modeRound, roundIncrement]; split_ifs <;> omega
  case rtz => simp only [modeRound, roundIncrement]; omega
  case rod => simp only [modeRound, roundIncrement, or_one_eq]; split_ifs <;> omega
  case rdn | rup =>
    by_cases hb : v % 128 = 0 <;> cases sign <;> simp [modeRound, roundIncrement, hb] <;> omega

theorem modeRound_eq_iff (m : RoundingMode) (sign : Bool) {v : Nat} (hv : v < 2 ^ 31) :
    modeRound m sign (v / 128) (v % 128) = 2 ^ 24 ↔ 2 ^ 31 ≤ v + roundIncrement m sign := by
  have hcases := modeRound_cases m sign (v / 128) (v % 128)
  have hlt := modeRound_lt_iff m sign hv
  omega

/-- Steps 4 and 6: adding the increment, cutting the round bits and, at a tie, clearing the lowest bit. -/
theorem tieCorrected_eq_modeRound {m : RoundingMode} (sign : Bool) {v : Nat} (hm : ¬ (v % 128 ≠ 0 ∧ m = .rod)) :
    (if v % 128 = 0x40 ∧ m = .rne then clearLowBit ((v + roundIncrement m sign) >>> 7)
      else (v + roundIncrement m sign) >>> 7) = modeRound m sign (v / 128) (v % 128) := by
  rw [Nat.shiftRight_eq_div_pow]
  cases m
  case rne => simp only [modeRound, roundIncrement, clearLowBit, and_true]; split_ifs <;> omega
  case rod =>
    have hb : v % 128 = 0 := by simpa using hm
    simp [modeRound, roundIncrement, hb]
  case rmm => simp only [modeRound, roundIncrement, reduceCtorEq, and_false, if_false]; split_ifs <;> omega
  case rtz => simp [modeRound, roundIncrement]
  case rdn | rup =>
    by_cases hb : v % 128 = 0 <;> cases sign <;> simp [modeRound, roundIncrement, hb] <;> omega

/-- Steps 4 to 8 pack the rounded significand; the canonical zero takes the exponent field away from a result of 0. -/
theorem roundTail_word (m : RoundingMode) (sign : Bool) (exp v : Nat) (raised : FlagSet) :
    (roundTail m sign exp v (v % 128) raised).word =
      wordOf sign (if modeRound m sign (v / 128) (v % 128) = 0 then 0 else exp) (modeRound m sign (v / 128) (v % 128)) := by
  rw [wordOf_eq_packWord]
  by_cases hm : v % 128 ≠ 0 ∧ m = .rod
  case pos =>
    obtain ⟨hb, rfl⟩ := hm
    have hodd : modeRound .rod sign (v / 128) (v % 128) = v / 128 ||| 1 := if_neg hb
    have hne : v / 128 ||| 1 ≠ 0 := by rw [or_one_eq]; exact Nat.succ_ne_zero _
    rw [hodd, if_neg hne, roundTail, Nat.shiftRight_eq_div_pow]
    simp only [ne_eq, hb, not_false_eq_true, and_self, if_true]
    rfl
  case neg =>
    rw [roundTail]
    simp only [hm, if_false, finishWord, tieCorrected_eq_modeRound sign hm]

theorem roundTail_word_zero (m : RoundingMode) (sign : Bool) (v : Nat) (raised : FlagSet) :
    (roundTail m sign 0 v (v % 128) raised).word = wordOf sign 0 (modeRound m sign (v / 128) (v % 128)) := by
  rw [roundTail_word, ite_self]

theorem roundTail_word_of_le (m : RoundingMode) (sign : Bool) (exp : Nat) {v : Nat} (hv : 2 ^ 30 ≤ v) (raised : FlagSet) :
    (roundTail m sign exp v (v % 128) raised).word = wordOf sign exp (modeRound m sign (v / 128) (v % 128)) := by
  have hne : modeRound m sign (v / 128) (v % 128) ≠ 0 := by
    have hcases := modeRound_cases m sign (v / 128) (v % 128)
    omega
  rw [roundTail_word, if_neg hne]

theorem overflowResult_eq_overflowWord (m : RoundingMode) (sign : Bool) :
    overflowResult m sign = { word := overflowWord m sign, raise := flagOF ||| flagNX } := by
  rw [overflowResult_eq]
  cases m <;> cases sign <;> rfl

/-- What stage R raises below the range: inexact by the round bits, and underflow with it if the result is tiny. -/
theorem underflowFlag_or_inexactFlag (tiny : Bool) (bits : Nat) :
    underflowFlag tiny bits ||| inexactFlag bits =
      if bits = 0 then 0 else if tiny = true then flagUF ||| flagNX else flagNX := by
  by_cases hb : bits = 0 <;> cases tiny <;> simp [underflowFlag, inexactFlag, hb]

/-- Stage R on its domain, in closed form. -/
theorem roundPack_eq_closedAnswer (m : RoundingMode) (t : Tininess) (sign : Bool) (exp : Int) {sig : Word}
    (hlo : 2 ^ 30 ≤ sig.toNat) (hhi : sig.toNat < 2 ^ 31) :
    roundPack m t sign exp sig = closedAnswer (modeRound m sign) (overflowWord m sign) t sign exp sig.toNat := by
  simp only [closedAnswer, modeRound_lt_iff m sign hhi, modeRound_eq_iff m sign hhi, ← isTiny_iff]
  split
  case isTrue hexp =>
    rw [roundPack_of_neg hexp, RR.mk.injEq]
    refine ⟨roundTail_word_zero .., ?_⟩
    rw [roundTail_raise]
    exact underflowFlag_or_inexactFlag _ _
  case isFalse hexp =>
    simp only [← overflows_iff]
    split
    case isTrue hover => rw [roundPack_of_overflows (Int.not_lt.mp hexp) t hover, overflowResult_eq_overflowWord]
    case isFalse hwithin =>
      rw [roundPack_of_not_overflows (Int.not_lt.mp hexp) t hwithin, RR.mk.injEq]
      exact ⟨roundTail_word_of_le m sign _ hlo _, BitVec.zero_or⟩

/-- The six `RPK.*` operations on their domain: the closed form of the mode is the whole answer. -/
theorem exec_instrOfMode_closedAnswer (m : RoundingMode) (s : State) (sign : Bool) (exp : ExpPort) (sig : Word)
    (hlo : 2 ^ 30 ≤ sig.toNat) (hhi : sig.toNat < 2 ^ 31) (hm : m = .rod → s.roundOdd = true) :
    ∃ r : RR, exec (instrOfMode m sign exp sig) s = .next (afterWord s r.word r.raise) ∧
      r = closedAnswer (modeRound m sign) (overflowWord m sign) s.ctx.tininess sign exp.toInt sig.toNat := by
  refine ⟨_, ?_, roundPack_eq_closedAnswer m s.ctx.tininess sign exp.toInt hlo hhi⟩
  rw [exec_instrOfMode_of_legal sign exp hm ((legalSig_iff sig).mpr ⟨hlo, hhi⟩), respond_eq_afterWord]

/-- Settles O26: the closed form of round to nearest, ties to even. -/
theorem rpkRneRoundsToNearestTiesToEven : Obligations.RpkRneRoundsToNearestTiesToEven := by
  intro s sign exp sig hlo hhi
  cases sign <;> exact exec_instrOfMode_closedAnswer .rne s _ exp sig hlo hhi nofun

/-- Settles O27: the closed form of round to nearest, ties away. -/
theorem rpkRmmRoundsToNearestTiesAway : Obligations.RpkRmmRoundsToNearestTiesAway := by
  intro s sign exp sig hlo hhi
  cases sign <;> exact exec_instrOfMode_closedAnswer .rmm s _ exp sig hlo hhi nofun

/-- Settles O28: the closed form of truncation. -/
theorem rpkRtzTruncates : Obligations.RpkRtzTruncates := by
  intro s sign exp sig hlo hhi
  cases sign <;> exact exec_instrOfMode_closedAnswer .rtz s _ exp sig hlo hhi nofun

/-- Settles O29: the closed form of rounding toward negative. -/
theorem rpkRdnRoundsTowardNegative : Obligations.RpkRdnRoundsTowardNegative := by
  intro s sign exp sig hlo hhi
  cases sign <;> exact exec_instrOfMode_closedAnswer .rdn s _ exp sig hlo hhi nofun

/-- Settles O30: the closed form of rounding toward positive. -/
theorem rpkRupRoundsTowardPositive : Obligations.RpkRupRoundsTowardPositive := by
  intro s sign exp sig hlo hhi
  cases sign <;> exact exec_instrOfMode_closedAnswer .rup s _ exp sig hlo hhi nofun

/-- Settles O31: the closed form of rounding toward odd, a mode that exists when `ROUND_ODD` holds. -/
theorem rpkRodForcesAnOddLowestBit : Obligations.RpkRodForcesAnOddLowestBit := by
  intro s sign exp sig hlo hhi hodd
  cases sign <;> exact exec_instrOfMode_closedAnswer .rod s _ exp sig hlo hhi fun _ => hodd

/-- Settles O36: with zero round bits every mode keeps the kept part (`modeRound_zero`), and nothing overflows in range. -/
theorem exactTriplesAreNotRounded : Obligations.ExactTriplesAreNotRounded := by
  intro m t sign exp sig hlo hhi
  rw [roundPack_eq_closedAnswer m t sign exp hlo hhi]
  refine ⟨fun hexp hmax hexact => ?inRange, fun hexp hexact => ?below⟩
  case inRange =>
    have hwithin : ¬ (253 < exp ∨ (exp = 253 ∧ sig.toNat / 128 = 2 ^ 24)) := by omega
    rw [closedAnswer, if_neg (Int.not_lt.mpr hexp), hexact, modeRound_zero, if_neg hwithin, if_pos rfl]
  case below =>
    simp only [closedAnswer, if_pos hexp, hexact, modeRound_zero, if_true]

end Sys2Proof.Machine
end

section
/-! What every step keeps: the responses and the transcript variables (R65, R67, R9, R110), from any state that keeps them. -/

namespace Sys2Proof.Machine

open Sys2Proof

/-! ### Every response meets its condition -/

theorem responseOk_co_of_inClass {c : DispatchClass} {a b : Word} (hs : signOf a = signOf b) (hc : inClass c a b = true) :
    responseOk (.co (pathOf c a b)) = true := by
  cases hp : pathOf c a b with
  | early w =>
    have hnotNaN : isNaN w = false := by
      rw [← Bool.not_eq_true, isNaN_iff]
      obtain ⟨-, hfinite | ⟨hinf, -⟩⟩ := earlyWordOk_of_pathOf_eq_early hs hc hp
      · omega
      · exact fun ⟨_, hne⟩ => hne ((isInf_iff w).mp hinf).2
    simp [responseOk, hnotNaN]
  | nan => rfl
  | round sign exp sig =>
    obtain ⟨h0, h1, hlo, hhi⟩ := tripleOk_of_pathOf_eq_round hc hp
    simp [responseOk, h0, h1, (legalSig_iff sig).mpr ⟨hlo, hhi⟩]

theorem responseOk_rr_of_raise_eq_zero (w : Word) : responseOk (.rr { word := w, raise := 0 }) = true := by
  simp [responseOk, legalRaise]

/-- OF is raised on the overflow path alone. -/
theorem roundPack_eq_overflowResult_of_raise {m : RoundingMode} {t : Tininess} {sign : Bool} {exp : Int} {sig : Word}
    (h : (roundPack m t sign exp sig).raise.getLsbD 2 = true) : roundPack m t sign exp sig = overflowResult m sign := by
  by_cases hexp : exp < 0
  case pos =>
    rw [roundPack_of_neg hexp, roundTail_raise_getLsbD_two, underflowFlag] at h
    split at h <;> cases h
  case neg =>
    by_cases hover : overflows m sign exp sig.toNat = true
    case pos => exact roundPack_of_overflows (Int.not_lt.mp hexp) t hover
    case neg =>
      rw [roundPack_of_not_overflows (Int.not_lt.mp hexp) t hover, roundTail_raise_getLsbD_two] at h
      cases h

theorem responseOk_overflowResult (m : RoundingMode) (sign : Bool) : responseOk (.rr (overflowResult m sign)) = true := by
  rw [overflowResult_eq_overflowWord]
  cases m <;> cases sign <;> decide

theorem stageRRaises_legal : ∀ f ∈ stageRRaises, legalRaise f = true := by decide

theorem responseOk_roundPack (m : RoundingMode) (t : Tininess) (sign : Bool) (exp : Int) (sig : Word) :
    responseOk (.rr (roundPack m t sign exp sig)) = true := by
  by_cases hof : (roundPack m t sign exp sig).raise.getLsbD 2 = true
  case pos => rw [roundPack_eq_overflowResult_of_raise hof, responseOk_overflowResult]
  case neg =>
    have hmem := roundPack_raise_mem m t sign exp sig
    obtain ⟨-, hnv⟩ := stageRRaises_noDzNoNv _ hmem
    simp only [responseOk, stageRRaises_legal _ hmem, hnv, Bool.eq_false_of_not_eq_true hof, Bool.not_false, Bool.true_or,
      Bool.and_self]

theorem responseOk_propagateNaN (a b : Word) : responseOk (.rr (propagateNaN a b)) = true := by
  have hnan := isNaN_propagateNaN a b
  rcases propagateNaN_raise_cases a b with h | h <;> simp [responseOk, legalRaise, hnan, h, flagNV]

/-- An instruction that completes gives one response, and the response meets its condition. -/
theorem exec_responseOk {i : Instr} {s t : State} (h : exec i s = .next t) :
    ∃ r, t = afterResponse s r ∧ responseOk r = true := by
  rcases exec_eq_next h with ⟨c, a, b, -, hs, hc, rfl⟩ | ⟨m, sign, exp, sig, -, -, -, rfl⟩ | ⟨a, b, rfl, -, hfin⟩
  case inl => exact ⟨_, emit_co_eq_afterResponse s _, responseOk_co_of_inClass hs hc⟩
  case inr.inl => exact ⟨_, respond_eq_afterResponse s _, responseOk_roundPack ..⟩
  case inr.inr =>
    rcases finishPipeline_eq_next hfin with ⟨w, -, rfl⟩ | ⟨-, rfl⟩ | ⟨sign, exp, sig, m, -, -, rfl⟩
    case inl => exact ⟨_, respond_eq_afterResponse s _, responseOk_rr_of_raise_eq_zero w⟩
    case inr.inl => exact ⟨_, respond_eq_afterResponse s _, responseOk_propagateNaN a b⟩
    case inr.inr => exact ⟨_, respond_eq_afterResponse s _, responseOk_roundPack ..⟩

/-- Everything a request can do: one response, and then the binding of its word. -/
theorem runRequest_responseOk {dst : Option Nat} {r : Request} {s t : State} (h : runRequest dst r s = .next t) :
    ∃ resp, t = bindResult dst (afterResponse s resp) ∧ responseOk resp = true := by
  obtain ⟨i, u, -, hexec, rfl⟩ := runRequest_eq_next h
  obtain ⟨resp, rfl, hok⟩ := exec_responseOk hexec
  exact ⟨resp, rfl, hok⟩

/-! ### The invariant -/

theorem inv_afterResponse {s : State} {r : Response} (hinv : s.inv) (hr : responseOk r = true) : (afterResponse s r).inv := by
  obtain ⟨hvars, hresp⟩ := hinv
  refine ⟨hvars, ?_⟩
  rw [afterResponse, List.all_append, hresp, List.all_cons, hr]
  rfl

theorem inv_bindResult {s : State} (dst : Option Nat) (hinv : s.inv) : (bindResult dst s).inv := by
  obtain ⟨hvars, hresp⟩ := hinv
  rcases bindResult_cases dst s with h | ⟨n, r, -, -, h⟩
  case inl => rw [h]; exact ⟨hvars, hresp⟩
  case inr => rw [h]; exact ⟨setVar_sorted n r.word s.vars hvars, hresp⟩

/-- The invariant reads neither the context nor the transcript, so a caller's act keeps it. -/
theorem inv_of_runLine {l : Line} {s t : State} (hinv : s.inv) (h : runLine l s = .next t) : t.inv := by
  rcases runLine_eq_next h with ⟨-, dst, r, hrun⟩ | ⟨m, -, rfl⟩ | ⟨x, -, rfl⟩ | ⟨-, rfl⟩ | ⟨w, -, rfl⟩ | ⟨-, rfl⟩
  case inl =>
    obtain ⟨resp, rfl, hok⟩ := runRequest_responseOk hrun
    exact inv_bindResult dst (inv_afterResponse hinv hok)
  case inr.inr.inr.inr.inr =>
    obtain ⟨hvars, hresp⟩ := hinv
    refine ⟨hvars, ?_⟩
    rw [emit_responses, List.all_append, hresp]
    rfl
  all_goals exact hinv

/-- Settles O59: a step runs one line (`step_eq_next`), whose request gives one response that meets its condition
(`runRequest_responseOk`), or leaves what the invariant reads. -/
theorem everyStepKeepsWhatLeavesTheBlockLegal : Obligations.EveryStepKeepsWhatLeavesTheBlockLegal := by
  intro s t hinv h
  rcases step_eq_next h with ⟨-, rfl⟩ | ⟨l, rest, -, hline⟩
  case inl => exact hinv
  case inr =>
    have hinv' : State.inv { s with program := rest } := hinv
    exact inv_of_runLine hinv' hline

/-- Settles O60: reset lists nothing, and the invariant of empty lists reads neither the context nor `ROUND_ODD`. -/
theorem resetMeetsTheInvariant : Obligations.ResetMeetsTheInvariant :=
  ⟨⟨rfl, rfl⟩, rfl, rfl, rfl, rfl, rfl, fun _ _ => ⟨rfl, rfl⟩⟩

end Sys2Proof.Machine
end

section
/-! The context and response records as bits (R19, R38, R40). -/

namespace Sys2Proof.Machine

open Sys2Proof

theorem toNat_fctxOfCtx (c : Ctx) :
    (fctxOfCtx c).toNat = (tininessBit c.tininess).toNat * 256 + c.rm.toNat * 32 + c.flags.toNat := by
  have h : (fctxOfCtx c).toNat = ((BitVec.ofBool (tininessBit c.tininess)).toNat * 2 ^ 3 + c.rm.toNat) * 2 ^ 5 + c.flags.toNat := by
    rw [← toNat_append_eq_add, ← toNat_append_eq_add]
    rfl
  rw [h, BitVec.toNat_ofBool]
  ring

theorem tininessBit_tininessOfBit (b : Bool) : tininessBit (tininessOfBit b) = b := by cases b <;> rfl

theorem tininessOfBit_tininessBit (t : Tininess) : tininessOfBit (tininessBit t) = t := by cases t <;> rfl

section ContextFields
variable (w : FctxWord)

theorem toNat_ctxOfFctx_rm : (ctxOfFctx w).rm.toNat = w.toNat / 32 % 8 := by
  rw [ctxOfFctx, BitVec.extractLsb'_toNat, Nat.shiftRight_eq_div_pow]

theorem toNat_ctxOfFctx_flags : (ctxOfFctx w).flags.toNat = w.toNat % 32 := by
  rw [ctxOfFctx, BitVec.extractLsb'_toNat, Nat.shiftRight_zero]

theorem toNat_ctxOfFctx_tininess : (tininessBit (ctxOfFctx w).tininess).toNat = w.toNat / 256 := by
  have hw := w.isLt
  rw [ctxOfFctx, tininessBit_tininessOfBit, BitVec.getLsbD, Nat.testBit_eq_decide_div_mod_eq, Bool.toNat, Bool.cond_decide]
  split <;> omega

theorem fctxOfCtx_ctxOfFctx : fctxOfCtx (ctxOfFctx w) = w := by
  apply BitVec.eq_of_toNat_eq
  rw [toNat_fctxOfCtx, toNat_ctxOfFctx_rm, toNat_ctxOfFctx_flags, toNat_ctxOfFctx_tininess]
  omega

end ContextFields

theorem ctxOfFctx_fctxOfCtx (c : Ctx) : ctxOfFctx (fctxOfCtx c) = c := by
  have hrm := c.rm.isLt
  have hflags := c.flags.isLt
  have hword := toNat_fctxOfCtx c
  have hrm' : (ctxOfFctx (fctxOfCtx c)).rm = c.rm := by
    apply BitVec.eq_of_toNat_eq
    rw [toNat_ctxOfFctx_rm, hword]
    omega
  have hflags' : (ctxOfFctx (fctxOfCtx c)).flags = c.flags := by
    apply BitVec.eq_of_toNat_eq
    rw [toNat_ctxOfFctx_flags, hword]
    omega
  have htininess : (ctxOfFctx (fctxOfCtx c)).tininess = c.tininess := by
    have hbit : tininessBit (ctxOfFctx (fctxOfCtx c)).tininess = tininessBit c.tininess := by
      rw [Bool.eq_iff_iff, ← Bool.toNat_eq_one, ← Bool.toNat_eq_one, toNat_ctxOfFctx_tininess, hword]
      omega
    rw [← tininessOfBit_tininessBit c.tininess, ← hbit, tininessOfBit_tininessBit]
  exact congr (congr (congrArg Ctx.mk hrm') htininess) hflags'

/-- Settles O5: the word as a sum of its fields, and both directions of the round trip. -/
theorem contextWordLayoutIsReversible : Obligations.ContextWordLayoutIsReversible :=
  fun c w => ⟨toNat_fctxOfCtx c, fctxOfCtx_ctxOfFctx w, ctxOfFctx_fctxOfCtx c⟩

/-! ### The record of stage C as bits (R38) -/

/-- The five fields of a `CO` word side by side: kind, sign, exponent, significand, word. -/
def coWord (kind : BitVec 2) (sign : Bool) (exp : BitVec 16) (sig word : Word) : CoWord :=
  kind ++ BitVec.ofBool sign ++ exp ++ sig ++ word

section CoFields
variable (kind : BitVec 2) (sign : Bool) (exp : BitVec 16) (sig word : Word)

theorem toNat_coWord : (coWord kind sign exp sig word).toNat =
    (((kind.toNat * 2 ^ 1 + sign.toNat) * 2 ^ 16 + exp.toNat) * 2 ^ 32 + sig.toNat) * 2 ^ 32 + word.toNat := by
  have h : (coWord kind sign exp sig word).toNat =
      (((kind.toNat * 2 ^ 1 + (BitVec.ofBool sign).toNat) * 2 ^ 16 + exp.toNat) * 2 ^ 32 + sig.toNat) * 2 ^ 32 + word.toNat := by
    rw [← toNat_append_eq_add, ← toNat_append_eq_add, ← toNat_append_eq_add, ← toNat_append_eq_add]
    rfl
  rw [h, BitVec.toNat_ofBool]

theorem coWord_kind : (coWord kind sign exp sig word).extractLsb' 81 2 = kind := by
  have hsign := sign.toNat_lt
  apply BitVec.eq_of_toNat_eq
  rw [BitVec.extractLsb'_toNat, Nat.shiftRight_eq_div_pow, toNat_coWord]
  omega

theorem coWord_sign : (coWord kind sign exp sig word).getLsbD 80 = sign := by
  rw [BitVec.getLsbD, Nat.testBit_eq_decide_div_mod_eq, toNat_coWord]
  cases sign <;> simp <;> omega

theorem coWord_exp : (coWord kind sign exp sig word).extractLsb' 64 16 = exp := by
  apply BitVec.eq_of_toNat_eq
  rw [BitVec.extractLsb'_toNat, Nat.shiftRight_eq_div_pow, toNat_coWord]
  omega

theorem coWord_sig : (coWord kind sign exp sig word).extractLsb' 32 32 = sig := by
  apply BitVec.eq_of_toNat_eq
  rw [BitVec.extractLsb'_toNat, Nat.shiftRight_eq_div_pow, toNat_coWord]
  omega

theorem coWord_word : (coWord kind sign exp sig word).extractLsb' 0 32 = word := by
  apply BitVec.eq_of_toNat_eq
  rw [BitVec.extractLsb'_toNat, Nat.shiftRight_zero, toNat_coWord]
  omega

end CoFields

/-- Settles O6: the `RR` word as a sum of its fields; a `CO` word by its kind, and the fields the kind reads. -/
theorem responseRecordsHaveTheirLayouts : Obligations.ResponseRecordsHaveTheirLayouts := by
  intro r sign exp sig word
  refine ⟨toNat_append_eq_add r.word r.raise, ?early, ?nan, ?round, ?neither⟩
  case early =>
    change coOfBits (coWord 0 sign exp sig word) = _
    rw [coOfBits, coWord_kind, coWord_word]
    rfl
  case nan =>
    change coOfBits (coWord 1 sign exp sig word) = _
    rw [coOfBits, coWord_kind]
    rfl
  case round =>
    change coOfBits (coWord 2 sign exp sig word) = _
    rw [coOfBits, coWord_kind, coWord_sign, coWord_exp, coWord_sig]
    rfl
  case neither =>
    change coOfBits (coWord 3 sign exp sig word) = _
    rw [coOfBits, coWord_kind]
    rfl

end Sys2Proof.Machine
end

section
/-! One step by the line it runs (R29, R47), what only the caller changes (R20), and runs (R126, R129). -/

namespace Sys2Proof.Machine

open Sys2Proof

/-! ### The line a step runs -/

theorem step_of_program {s : State} {l : Line} {rest : List Line} (h : s.program = l :: rest) :
    step s = runLine l { s with program := rest } := by
  rw [step, h]

theorem runRequest_of_exec {dst : Option Nat} {r : Request} {i : Instr} {s t : State}
    (hexec : exec i s = .next t) (hdecode : decode s.roundOdd s.ctx.rm r = .ok i) :
    runRequest dst r s = .next (bindResult dst t) := by
  simp only [runRequest, hdecode, hexec]

theorem runRequest_of_refused {dst : Option Nat} {r : Request} {i : Instr} {s : State} {e : Refusal}
    (hexec : exec i s = .refused e) (hdecode : decode s.roundOdd s.ctx.rm r = .ok i) :
    runRequest dst r s = .refused e := by
  simp only [runRequest, hdecode, hexec]

theorem runRequest_of_error {dst : Option Nat} {r : Request} {s : State} {e : DecodeError}
    (hdecode : decode s.roundOdd s.ctx.rm r = .error e) : runRequest dst r s = .refused (refusalOf e) := by
  simp only [runRequest, hdecode]

/-- Settles O53: a request line runs its request and binds nothing. -/
theorem stepRunsTheDecodedInstruction : Obligations.StepRunsTheDecodedInstruction := by
  intro s r rest hprogram
  have hrejected : ∀ e, decode s.roundOdd s.ctx.rm r = .error e →
      runRequest none r { s with program := rest } = .refused (refusalOf e) := fun _ he => runRequest_of_error he
  rw [step_of_program hprogram, runLine]
  exact ⟨fun i hi => ⟨fun t ht => runRequest_of_exec ht hi, fun e he => runRequest_of_refused he hi⟩,
    hrejected _, hrejected _, hrejected _⟩

/-! ### Lines that bind a variable -/

theorem getVar_setVar_same (n : Nat) (w : Word) (vs : List (Nat × Word)) : getVar n (setVar n w vs) = some w := by
  induction vs with
  | nil => simp [setVar, getVar]
  | cons q rest ih =>
    obtain ⟨k, v⟩ := q
    rw [setVar]
    split_ifs with hlt heq
    · simp [getVar]
    · simp [getVar]
    · simp [getVar, heq, ih]

theorem getVar_setVar_ne {n k : Nat} (h : n ≠ k) (w : Word) (vs : List (Nat × Word)) :
    getVar n (setVar k w vs) = getVar n vs := by
  induction vs with
  | nil => simp [setVar, getVar, h]
  | cons q rest ih =>
    obtain ⟨j, v⟩ := q
    rw [setVar]
    split_ifs with hlt heq
    · simp [getVar, h]
    · simp [getVar, h, ← heq]
    · simp [getVar, ih]

theorem operandWord_eq_some {s : State} {o : Opnd} {x : Word} (h : o = .lit x ∨ ∃ n, o = .var n ∧ getVar n s.vars = some x) :
    operandWord s o = some x := by
  rcases h with rfl | ⟨n, rfl, hn⟩
  · rfl
  · exact hn

theorem bindResult_afterWord (n : Nat) (s : State) (w : Word) (f : FlagSet) :
    bindResult (some n) (afterWord s w f) = { afterWord s w f with vars := setVar n w s.vars } := by
  simp [bindResult]

/-- Settles O54: the line's request decodes to the instruction, whose response `bindResult` then binds. -/
theorem transcriptLinesBindTheirResult : Obligations.TranscriptLinesBindTheirResult := by
  intro s rest dst w f
  refine ⟨fun a b x y hprogram hx hy hs hexec => ?addMags, fun m sign exp sig hprogram hm hlo hhi hexec => ?roundPack,
    getVar_setVar_same dst w s.vars, fun n hn => getVar_setVar_ne hn w s.vars⟩
  case addMags =>
    have hx' : operandWord { s with program := rest } a = some x := operandWord_eq_some hx
    have hy' : operandWord { s with program := rest } b = some y := operandWord_eq_some hy
    have hsame : sameSign (cqA (cqPack x y)) (cqB (cqPack x y)) = true := by rwa [cqA_cqPack, cqB_cqPack, sameSign_iff]
    have hdecode := decode_addMags_of_sameSign (roundOdd := s.roundOdd) (rm := s.ctx.rm) hsame
    rw [cqA_cqPack, cqB_cqPack] at hdecode
    simp only [step_of_program hprogram, runLine, hx', hy', runRequest_of_exec hexec hdecode, bindResult_afterWord]
  case roundPack =>
    have hsig : legalSig (rqSig (rqPack sign exp sig)) = true := by
      rw [rqSig_rqPack, legalSig_iff]
      exact ⟨hlo, hhi⟩
    have hdecode := decode_roundPack_of_legal hsig hm
    rw [rqSign_rqPack, rqExp_rqPack, rqSig_rqPack] at hdecode
    rw [step_of_program hprogram, runLine, runRequest_of_exec hexec hdecode, bindResult_afterWord]

/-! ### The caller's own lines -/

/-- Settles O55: each such line is one write of `runLine`; a written context reads back as what was written (O5). -/
theorem callerLinesWriteOnlyTheirField : Obligations.CallerLinesWriteOnlyTheirField := by
  intro s rest
  have hline : ∀ l, s.program = l :: rest → step s = runLine l { s with program := rest } := fun _ => step_of_program
  exact ⟨hline _, hline _, hline _, hline _, hline _, hline _, fun t => hline _, hline _,
    fun w hw => ⟨ctxOfFctx w, fctxOfCtx_ctxOfFctx w, hline _ hw⟩, hline _⟩

theorem runLine_of_transaction {l : Line} {s t : State} (hl : isTransaction l = true) (h : runLine l s = .next t) :
    ∃ dst r, runRequest dst r s = .next t := by
  rcases runLine_eq_next h with ⟨-, hrun⟩ | ⟨m, rfl, -⟩ | ⟨x, rfl, -⟩ | ⟨rfl, -⟩ | ⟨w, rfl, -⟩ | ⟨rfl, -⟩
  case inl => exact hrun
  all_goals cases hl

section AfterResponse
variable (s : State) (r : Response)
@[simp] theorem afterResponse_rm : (afterResponse s r).ctx.rm = s.ctx.rm := rfl
@[simp] theorem afterResponse_tininess : (afterResponse s r).ctx.tininess = s.ctx.tininess := rfl
@[simp] theorem afterResponse_roundOdd : (afterResponse s r).roundOdd = s.roundOdd := rfl
@[simp] theorem afterResponse_program : (afterResponse s r).program = s.program := rfl
@[simp] theorem afterResponse_responses : (afterResponse s r).responses = s.responses ++ [r] := rfl
end AfterResponse

/-- Settles O57: the step of each kind of line, by the fields it leaves; a transaction only ORs into the flags. -/
theorem onlyTheCallerChangesTheModesOrClearsAFlag : Obligations.OnlyTheCallerChangesTheModesOrClearsAFlag := by
  intro s t h
  rcases step_eq_next h with ⟨-, rfl⟩ | ⟨l, rest, hprogram, hline⟩
  case inl => simp
  case inr =>
    rw [hprogram]
    rcases runLine_eq_next hline with ⟨-, dst, r, hrun⟩ | ⟨m, rfl, rfl⟩ | ⟨x, rfl, rfl⟩ | ⟨rfl, rfl⟩ | ⟨w, rfl, rfl⟩ | ⟨rfl, rfl⟩
    case inl =>
      obtain ⟨resp, rfl, -⟩ := runRequest_responseOk hrun
      have hkept : s.ctx.flags &&& (s.ctx.flags ||| raisedBy resp) = s.ctx.flags := by
        ext i hi
        simpa using Or.inl
      simp [hkept]
    all_goals simp

/-! ### Two transactions, and runs -/

theorem sameModes_afterResponse (s : State) (r : Response) : SameModes (afterResponse s r) s := ⟨rfl, rfl, rfl⟩

/-- Settles O52: each of the two answers the same response before and after the other, since neither changes what the other
reads (`exec_sameModes`), and OR is commutative. -/
theorem transactionsCommuteUpToResponseOrder : Obligations.TransactionsCommuteUpToResponseOrder := by
  intro i j s s1 s2 hi hj
  obtain ⟨ri, hri⟩ := exec_sameModes hi
  obtain ⟨rj, hrj⟩ := exec_sameModes hj
  injection hi.symm.trans (hri s ⟨rfl, rfl, rfl⟩) with hs1
  subst hs1
  injection hj.symm.trans (hrj _ ⟨rfl, rfl, rfl⟩) with hs2
  subst hs2
  refine ⟨afterResponse s rj, afterResponse (afterResponse s rj) ri, ri, rj, hrj s (sameModes_afterResponse s ri),
    hri _ ⟨rfl, rfl, rfl⟩, ?_, ?_, ?_⟩
  · simp [afterResponse, BitVec.or_assoc, BitVec.or_comm (raisedBy ri)]
  · simp
  · simp

/-- Settles O56: by induction on the number of steps. -/
theorem anEndedTranscriptLeavesTheMachineIdle : Obligations.AnEndedTranscriptLeavesTheMachineIdle := by
  intro s hprogram k
  have hstep : step s = .next s := by rw [step, hprogram]
  induction k with
  | zero => rfl
  | succ k ih => rw [run_succ_of_next hstep, ih]

/-- A step of a transaction takes its line off, gives one response and ORs what it raises. -/
theorem step_of_transaction {s t : State} {l : Line} {rest : List Line} (hprogram : s.program = l :: rest)
    (hl : isTransaction l = true) (h : step s = .next t) :
    ∃ r, t.ctx.rm = s.ctx.rm ∧ t.ctx.tininess = s.ctx.tininess ∧ t.program = rest ∧ t.responses = s.responses ++ [r] ∧
      t.ctx.flags = s.ctx.flags ||| raisedBy r := by
  rw [step_of_program hprogram] at h
  obtain ⟨dst, r, hrun⟩ := runLine_of_transaction hl h
  obtain ⟨resp, rfl, -⟩ := runRequest_responseOk hrun
  exact ⟨resp, by simp⟩

/-- Settles O58: by induction on the number of steps; a step past the end changes nothing, and each step before it adds one
response and its raised set. -/
theorem flagsOfARunAreTheUnionOfItsRaisedSets : Obligations.FlagsOfARunAreTheUnionOfItsRaisedSets := by
  intro k
  induction k with
  | zero =>
    intro s t _ hrun
    injection hrun with hst
    subst hst
    exact ⟨rfl, rfl, rfl, [], by simp⟩
  | succ k ih =>
    intro s t hlines hrun
    cases hprogram : s.program with
    | nil =>
      injection (anEndedTranscriptLeavesTheMachineIdle s hprogram (k + 1)).symm.trans hrun with hst
      subst hst
      exact ⟨rfl, rfl, hprogram, [], by simp⟩
    | cons l rest =>
      obtain ⟨u, hstep, hrun⟩ := run_succ_eq_next hrun
      rw [hprogram, List.take_succ_cons, List.forall_mem_cons] at hlines
      obtain ⟨hl, hrest⟩ := hlines
      obtain ⟨r, hrm, htininess, hprog, hresp, hflags⟩ := step_of_transaction hprogram hl hstep
      obtain ⟨hrm', htininess', hprog', new, hresp', hlength, hflags'⟩ := ih u t (hprog ▸ hrest) hrun
      refine ⟨hrm'.trans hrm, htininess'.trans htininess, ?_, r :: new, ?_, ?_, ?_⟩
      · rw [hprog', hprog, List.drop_succ_cons]
      · rw [hresp', hresp, List.append_assoc, List.singleton_append]
      · rw [List.length_cons, hlength, hprog, List.take_succ_cons, List.length_cons]
      · rw [hflags', hflags, List.foldl_cons]

end Sys2Proof.Machine
end

section
/-! The pipeline's laws (42_pipeline.md) and what completes or is refused (R46, R91). -/

namespace Sys2Proof.Machine

open Sys2Proof

/-! ### What completes, and what is refused (R46) -/

/-- Settles O40: by family; of the exits of stage C only `ROUND` asks for a mode. -/
theorem everyLegalRequestCompletes : Obligations.EveryLegalRequestCompletes := by
  intro i s hwf hrod hadd
  rcases instr_cases i with ⟨c, a, b, rfl⟩ | ⟨m, sign, exp, sig, rfl⟩ | ⟨a, b, rfl⟩
  case inl =>
    rw [wellFormed_instrOfClass, Bool.and_eq_true, sameSign_iff] at hwf
    obtain ⟨hs, hc⟩ := hwf
    exact ⟨_, _, exec_instrOfClass_of_inClass s hs hc, afterCO_responses ..⟩
  case inr.inl =>
    rw [wellFormed_instrOfMode] at hwf
    rw [mode_instrOfMode, Option.some_inj] at hrod
    exact ⟨_, _, exec_instrOfMode_of_legal sign exp hrod hwf, respond_responses ..⟩
  case inr.inr =>
    have hs : signOf a = signOf b := (sameSign_iff a b).mp hwf
    cases hco : combine a b with
    | early w => exact ⟨_, _, exec_addmagsF32_of_combine_eq_early s hs hco, afterWord_responses ..⟩
    | nan => exact ⟨_, _, exec_addmagsF32_of_combine_eq_nan s hs hco, afterWord_responses ..⟩
    | round sign exp sig =>
      obtain ⟨m, hm⟩ | hne := hadd a b rfl
      · exact ⟨_, _, exec_addmagsF32_of_combine_eq_round s hs hco hm, afterWord_responses ..⟩
      · exact absurd hco (hne sign exp sig)

theorem exec_addmagsF32_of_mixedSigns {a b : Word} (s : State) (h : signOf a ≠ signOf b) :
    exec (.addmagsF32 a b) s = .refused .mixedSigns :=
  if_neg fun hs => h ((sameSign_iff a b).mp hs)

/-- Settles O41: each refusal is the branch of a failed test: `sameSign`, `legalSig`, `ROUND_ODD`, or a code without a mode. -/
theorem undefinedRequestsAreRefused : Obligations.UndefinedRequestsAreRefused := by
  intro s a b c m sign exp sig
  refine ⟨fun hs => ⟨exec_addmagsF32_of_mixedSigns s hs, ?mixedClass⟩, fun hsig hm => ?unnormalised, fun hodd => ?rod,
    fun zs ze zg hs hco hrm => ?reserved⟩
  case mixedClass =>
    rw [exec_instrOfClass]
    exact if_neg fun hsame => hs ((sameSign_iff a b).mp hsame)
  case unnormalised =>
    have hexists : ¬ (m = .rod ∧ s.roundOdd = false) := fun ⟨hrod, hodd⟩ => by simp [hm hrod] at hodd
    rw [exec_instrOfMode, if_neg hexists, runRoundPack, if_neg ((legalSig_iff sig).not.mpr hsig)]
  case rod =>
    rw [show Instr.rpkRod sign exp sig = instrOfMode .rod sign exp sig from rfl, exec_instrOfMode, if_pos ⟨rfl, hodd⟩]
  case reserved =>
    have hmode : s.mode = none := (modeOfCode_eq_none_iff s.roundOdd s.ctx.rm).mpr hrm
    simp only [exec_addmagsF32_of_sameSign s hs, hco, finishPipeline, hmode]

/-! ### Infinities and overflow (R100, R102) -/

theorem combine_of_inClass {c : DispatchClass} {a b : Word} (hc : inClass c a b = true) : combine a b = pathOf c a b := by
  rw [combine_eq_pathOf, ← eq_classify_of_inClass hc]

theorem combine_inf {x y : Word} (hx : isInf x = true) (hy : isNaN y = false) : combine x y = .early x := by
  obtain ⟨hex, hfx⟩ := (isInf_iff x).mp hx
  by_cases hey : expOf y = 255
  case pos =>
    have hfy : fracOf y = 0 := by
      by_contra hne
      rw [(isNaN_iff y).mpr ⟨hey, hne⟩] at hy
      cases hy
    have hc : inClass .infEq x y = true := by simp [inClass, hex, hey, hfx, hfy]
    exact combine_of_inClass hc
  case neg =>
    have hlt : expOf y < 255 := lt_of_le_of_ne (expOf_le y) hey
    have hc : inClass .infFarA x y = true := by simp [inClass, hlt, hex, hfx]
    rw [combine_of_inClass hc, pathOf, pathInfFarA, packWord_inf_eq rfl hex hfx]

/-- Settles O45: an infinity in front leaves stage C early as itself (`combine_inf`), and stage C takes no notice of the order. -/
theorem infinityAbsorbsEverySameSignOperand : Obligations.InfinityAbsorbsEverySameSignOperand := by
  intro s x y hx hy hs
  have hxy : combine x y = .early x := combine_inf hx hy
  have hyx : combine y x = .early x := combine_comm hs ▸ hxy
  exact ⟨exec_addmagsF32_of_combine_eq_early s hs hxy, exec_addmagsF32_of_combine_eq_early s hs.symm hyx⟩

theorem sign_of_combine_eq_round {a b : Word} {sign : Bool} {exp : Int} {sig : Word} (h : combine a b = .round sign exp sig) :
    sign = signOf a := sign_of_pathOf_eq_round (combine_eq_pathOf a b ▸ h)

/-- Settles O48: exponent 254 is past the range in every mode. -/
theorem topBinadeTriplesOverflowToTheTableWord : Obligations.TopBinadeTriplesOverflowToTheTableWord := by
  intro s a b m sign sig hs hm hco
  have hover : overflows m sign 254 sig.toNat = true := (overflows_iff m sign 254 sig.toNat).mpr (.inl (by decide))
  rw [exec_addmagsF32_of_combine_eq_round s hs hco hm, roundPack_of_overflows (by decide) _ hover,
    overflowResult_eq_overflowWord, sign_of_combine_eq_round hco]

/-! ### Commutativity (R105) -/

theorem finishPipeline_comm {co : CO} (h : co ≠ .nan) (a b : Word) (s : State) :
    finishPipeline co a b s = finishPipeline co b a s := by
  cases co with
  | early w => rfl
  | nan => exact absurd rfl h
  | round sign exp sig => rfl

theorem exec_addmagsF32_comm (s : State) {a b : Word} (ha : isNaN a = false) (hb : isNaN b = false) :
    exec (.addmagsF32 a b) s = exec (.addmagsF32 b a) s := by
  by_cases hs : signOf a = signOf b
  case pos =>
    have hnotNaN : combine b a ≠ .nan := by simp [combine_eq_nan_iff, ha, hb]
    rw [exec_addmagsF32_of_sameSign s hs, exec_addmagsF32_of_sameSign s hs.symm, combine_comm hs, finishPipeline_comm hnotNaN]
  case neg => rw [exec_addmagsF32_of_mixedSigns s hs, exec_addmagsF32_of_mixedSigns s (Ne.symm hs)]

/-- Settles O47: mixed signs are refused in both orders; else stage C answers the same and the operands are not looked at again. -/
theorem addMagsIsCommutativeForNonNanOperands : Obligations.AddMagsIsCommutativeForNonNanOperands :=
  fun s _ _ ha hb => exec_addmagsF32_comm s ha hb

/-! ### No underflow, and no use of the tininess mode (R97) -/

/-- Of the flags `propagateNaN` may raise NV alone (R9). -/
theorem propagateNaN_raise_noUfNoDz (a b : Word) :
    (propagateNaN a b).raise.getLsbD 1 = false ∧ (propagateNaN a b).raise.getLsbD 3 = false := by
  obtain hnone | hinvalid := propagateNaN_raise_cases a b
  · rw [hnone]; decide
  · rw [hinvalid]; decide

/-- What `ADDMAGS.F32` answers, it answers under either tininess mode, and it raises neither UF nor DZ. -/
theorem exec_addmagsF32_anyTininess {a b : Word} {s t : State} (h : exec (.addmagsF32 a b) s = .next t) :
    ∃ r : RR, r.raise.getLsbD 1 = false ∧ r.raise.getLsbD 3 = false ∧ t = s.respond r ∧
      ∀ x, exec (.addmagsF32 a b) (writeTininess s x) = .next ((writeTininess s x).respond r) := by
  obtain ⟨hs, hfin⟩ := execAddmagsF32_eq_next h
  rcases finishPipeline_eq_next hfin with ⟨w, hco, rfl⟩ | ⟨hco, rfl⟩ | ⟨sign, exp, sig, m, hco, hm, rfl⟩
  case inl =>
    exact ⟨_, BitVec.getLsbD_zero, BitVec.getLsbD_zero, rfl, fun x => exec_addmagsF32_of_combine_eq_early _ hs hco⟩
  case inr.inl =>
    obtain ⟨huf, hdz⟩ := propagateNaN_raise_noUfNoDz a b
    exact ⟨_, huf, hdz, rfl, fun x => exec_addmagsF32_of_combine_eq_nan _ hs hco⟩
  case inr.inr =>
    have hexp := (tripleOk_of_combine_eq_round hco).exp_nonneg
    obtain ⟨hdz, -⟩ := stageRRaises_noDzNoNv _ (roundPack_raise_mem m s.ctx.tininess sign exp sig)
    refine ⟨_, roundPack_raise_getLsbD_one_of_nonneg hexp m _ sign sig, hdz, rfl, fun x => ?_⟩
    rw [roundPack_tininess_of_nonneg hexp m s.ctx.tininess x]
    exact exec_addmagsF32_of_combine_eq_round (writeTininess s x) hs hco hm

/-- Settles O46: the one response of `exec_addmagsF32_anyTininess`. -/
theorem addMagsNeverUnderflows : Obligations.AddMagsNeverUnderflows := by
  intro s t a b h
  obtain ⟨r, huf, hdz, rfl, hany⟩ := exec_addmagsF32_anyTininess h
  refine ⟨?_, ?_, hany⟩
  · rw [respond_flags, BitVec.getLsbD_or, huf, Bool.or_false]
  · rw [respond_flags, BitVec.getLsbD_or, hdz, Bool.or_false]

/-! ### The identity (R99) -/

section SignedZero
variable (x : Word)

theorem toNat_and_signMask : (x &&& 0x80000000).toNat = (signOf x).toNat * 2 ^ 31 := by
  rw [BitVec.toNat_and, signOf_toNat]
  have hx := x.isLt
  have hmask := and_fieldMask x.toNat 31 1
  rw [show x.toNat / 2 ^ 31 % 2 ^ 1 = x.toNat / 2 ^ 31 by omega] at hmask
  exact hmask

theorem signOf_and_signMask : signOf (x &&& 0x80000000) = signOf x := by
  rw [Bool.eq_iff_iff, ← Bool.toNat_eq_one, ← Bool.toNat_eq_one, signOf_toNat, toNat_and_signMask]
  omega

theorem expOf_and_signMask : expOf (x &&& 0x80000000) = 0 := by
  rw [expOf_eq, toNat_and_signMask]
  omega

theorem fracOf_and_signMask : fracOf (x &&& 0x80000000) = 0 := by
  rw [fracOf_eq, toNat_and_signMask]
  omega

end SignedZero

theorem stickyShiftRight_zero_left (c : Nat) : stickyShiftRight 0 c = 0 := stickyShiftRight_of_lt (Nat.two_pow_pos c)

/-- A normal word plus a zero is a triple one binade down whose round bits are 0. -/
theorem combine_normal_zero {x z : Word} (hlo : 1 ≤ expOf x) (hhi : expOf x ≤ 254) (hez : expOf z = 0) (hfz : fracOf z = 0) :
    combine x z = .round (signOf x) ((expOf x : Int) - 1) (BitVec.ofNat 32 ((2 ^ 23 + fracOf x) * 128)) := by
  have hfx := fracOf_lt x
  have hc : inClass .alignAFar x z = true := by simp [inClass, hez, hhi]; omega
  have hsum : alignedSum (expOf x) (fracOf x) (expOf z) (fracOf z) = (2 ^ 23 + fracOf x) * 64 := by
    rw [alignedSum, nearPlaced_eq, if_pos hez, hfz, Nat.mul_zero, Nat.zero_mul, stickyShiftRight_zero_left, Nat.add_zero]
  rw [combine_of_inClass hc, pathOf, pathAlignAFar, alignSum_of_lt _ (by omega), hsum,
    show 2 * ((2 ^ 23 + fracOf x) * 64) = (2 ^ 23 + fracOf x) * 128 by omega]

theorem roundPack_normal_unchanged (m : RoundingMode) (t : Tininess) {x : Word} (hlo : 1 ≤ expOf x) (hhi : expOf x ≤ 254) :
    roundPack m t (signOf x) ((expOf x : Int) - 1) (BitVec.ofNat 32 ((2 ^ 23 + fracOf x) * 128)) = { word := x, raise := 0 } := by
  have hfx := fracOf_lt x
  have hsig : (BitVec.ofNat 32 ((2 ^ 23 + fracOf x) * 128)).toNat = (2 ^ 23 + fracOf x) * 128 :=
    (BitVec.toNat_ofNat _ _).trans (Nat.mod_eq_of_lt (by omega))
  obtain ⟨hexact, -⟩ := exactTriplesAreNotRounded m t (signOf x) ((expOf x : Int) - 1)
    (BitVec.ofNat 32 ((2 ^ 23 + fracOf x) * 128)) (by omega) (by omega)
  have hexp : ((expOf x : Int) - 1).toNat + 1 = expOf x := by omega
  rw [hexact (by omega) (by omega) (by omega), hsig, Nat.mul_div_cancel _ (by decide), wordOf_eq_packWord,
    packWord_carry _ _ (Nat.le_add_right ..), Nat.add_sub_cancel_left, hexp, packWord_fields]

theorem isNaN_of_expOf_eq_zero {z : Word} (hez : expOf z = 0) : isNaN z = false := by simp [isNaN, hez]

/-- Adding a zero of its sign on the right: an infinity, a zero or a subnormal leaves stage C early as it is, and a normal word
comes back through stage R. -/
theorem exec_addmagsF32_zero (s : State) {x z : Word} {m : RoundingMode} (hx : isNaN x = false) (hs : signOf x = signOf z)
    (hez : expOf z = 0) (hfz : fracOf z = 0) (hm : s.mode = some m) : exec (.addmagsF32 x z) s = .next (afterWord s x 0) := by
  have hrange : expOf x = 0 ∨ (1 ≤ expOf x ∧ expOf x ≤ 254) ∨ isInf x = true := by
    have hle := expOf_le x
    rw [← Bool.not_eq_true, isNaN_iff] at hx
    rw [isInf_iff]
    omega
  obtain hzero | ⟨hlo, hhi⟩ | hinf := hrange
  · have hc : inClass .subsum x z = true := by simp [inClass, hzero, hez]
    have hco : combine x z = .early x := by
      rw [combine_of_inClass hc, pathOf, pathSubsum, hfz, Nat.add_zero, BitVec.ofNat_toNat, BitVec.setWidth_eq]
    exact exec_addmagsF32_of_combine_eq_early s hs hco
  · rw [exec_addmagsF32_of_combine_eq_round s hs (combine_normal_zero hlo hhi hez hfz) hm, roundPack_normal_unchanged m _ hlo hhi]
  · exact exec_addmagsF32_of_combine_eq_early s hs (combine_inf hinf (isNaN_of_expOf_eq_zero hez))

/-- Settles O44: the masked word is a zero of the sign of `x`; `exec_addmagsF32_zero`, and its mirror by commutativity. -/
theorem addingZeroReturnsTheWordUnchanged : Obligations.AddingZeroReturnsTheWordUnchanged := by
  intro s x m hx hm
  have hxz := exec_addmagsF32_zero s hx (signOf_and_signMask x).symm (expOf_and_signMask x) (fracOf_and_signMask x) hm
  exact ⟨hxz, exec_addmagsF32_comm s (isNaN_of_expOf_eq_zero (expOf_and_signMask x)) hx ▸ hxz⟩

end Sys2Proof.Machine
end

section
/-! Significands that stand for an exact rational: a working significand compares with the multiples of a number as the exact value
does, which is all that rounding asks of it (R8, R92). -/

namespace Sys2Proof.Machine

open Sys2Proof

/-- `v` compares with every multiple of `k` as the exact `y` does. -/
structure Tracks (k v : ℕ) (y : ℚ) : Prop where
  lt_iff : ∀ j : ℤ, (v : ℤ) < k * j ↔ y < k * j
  le_iff : ∀ j : ℤ, (v : ℤ) ≤ k * j ↔ y ≤ k * j

theorem tracks_self (k v : ℕ) : Tracks k v v := by
  constructor
  · intro j; norm_cast
  · intro j; norm_cast

/-! ### How a sticky shift compares (R8) -/

section StickyCompare
variable (v c : ℕ) (j : ℤ)

theorem stickyShiftRight_lt_even_iff : (stickyShiftRight v c : ℤ) < 2 * j ↔ (v : ℤ) < 2 * j * 2 ^ c := by
  have hdiv : ((v / 2 ^ c : ℕ) : ℤ) < 2 * j ↔ (v : ℤ) < 2 * j * 2 ^ c := by
    push_cast
    exact Int.ediv_lt_iff_lt_mul (by positivity)
  rw [← hdiv]
  rcases stickyShiftRight_cases v c with ⟨-, h⟩ | ⟨-, h⟩
  · rw [h]
  · rw [h, or_one_eq]; omega

/-- An even number that the shifted value equals is one that the shift lost nothing to reach. -/
theorem stickyShiftRight_eq_even_iff : (stickyShiftRight v c : ℤ) = 2 * j ↔ (v : ℤ) = 2 * j * 2 ^ c := by
  have hpos : (2 ^ c : ℤ) ≠ 0 := by positivity
  rcases stickyShiftRight_cases v c with ⟨hr, h⟩ | ⟨hr, h⟩
  · have hexact : ((v / 2 ^ c : ℕ) : ℤ) * 2 ^ c = v := by exact_mod_cast Nat.div_mul_cancel (Nat.dvd_of_mod_eq_zero hr)
    rw [h, ← hexact, mul_left_inj' hpos]
  · refine iff_of_false ?odd fun heq => hr ?multiple
    case odd => rw [h, or_one_eq]; omega
    case multiple =>
      have hdvd : ((2 ^ c : ℕ) : ℤ) ∣ v := by rw [heq]; exact_mod_cast Dvd.intro_left _ rfl
      exact Nat.mod_eq_zero_of_dvd (Int.natCast_dvd_natCast.mp hdvd)

theorem stickyShiftRight_le_even_iff : (stickyShiftRight v c : ℤ) ≤ 2 * j ↔ (v : ℤ) ≤ 2 * j * 2 ^ c := by
  rw [le_iff_lt_or_eq, le_iff_lt_or_eq, stickyShiftRight_lt_even_iff, stickyShiftRight_eq_even_iff]

end StickyCompare

namespace Tracks
variable {k v : ℕ} {y : ℚ} (h : Tracks k v y)
include h

theorem of_mul (n : ℕ) : Tracks (k * n) v y := by
  constructor
  · intro j; simpa [mul_assoc] using h.lt_iff (n * j)
  · intro j; simpa [mul_assoc] using h.le_iff (n * j)

theorem double : Tracks (2 * k) (2 * v) (2 * y) := by
  constructor
  · intro j; simpa [mul_assoc] using h.lt_iff j
  · intro j; simpa [mul_assoc] using h.le_iff j

theorem add_multiple (u : ℕ) : Tracks k (k * u + v) ((k * u : ℕ) + y) := by
  constructor
  · intro j
    have hj := h.lt_iff (j - u)
    push_cast at hj ⊢
    rw [mul_sub, mul_sub, lt_sub_iff_add_lt', lt_sub_iff_add_lt'] at hj
    exact hj
  · intro j
    have hj := h.le_iff (j - u)
    push_cast at hj ⊢
    rw [mul_sub, mul_sub, le_sub_iff_add_le', le_sub_iff_add_le'] at hj
    exact hj

/-- A sticky shift keeps the comparisons with even numbers, and so those with multiples of an even `k`. -/
theorem shift (hk : 2 ∣ k) (c : ℕ) : Tracks k (stickyShiftRight v c) (y / 2 ^ c) := by
  obtain ⟨n, rfl⟩ := hk
  have hpos : (0 : ℚ) < 2 ^ c := by positivity
  have hassoc : ∀ j : ℤ, ((2 * n : ℕ) : ℤ) * j = 2 * (n * j) := fun j => by push_cast; ring
  constructor
  · intro j
    rw [hassoc, stickyShiftRight_lt_even_iff, ← hassoc, mul_assoc, h.lt_iff, div_lt_iff₀ hpos]
    push_cast
    simp only [mul_assoc]
  · intro j
    rw [hassoc, stickyShiftRight_le_even_iff, ← hassoc, mul_assoc, h.le_iff, div_le_iff₀ hpos]
    push_cast
    simp only [mul_assoc]

end Tracks

/-! ### Rounding a tracked significand (R72 to R80, R92) -/

section RoundToInt
variable {v : ℕ} {y : ℚ} (h : Tracks 64 v y)
include h

theorem lt_multiple_iff (n : ℕ) : v < 64 * n ↔ y < 64 * n := by exact_mod_cast h.lt_iff n

theorem le_multiple_iff (n : ℕ) : v ≤ 64 * n ↔ y ≤ 64 * n := by exact_mod_cast h.le_iff n

theorem floor_of_tracks : ⌊y / 128⌋ = (v / 128 : ℕ) := by
  have hlo := (lt_multiple_iff h (2 * (v / 128))).not.mp (by omega)
  have hhi := (lt_multiple_iff h (2 * (v / 128 + 1))).mp (by omega)
  push_cast at hlo hhi
  rw [Int.floor_eq_iff, Int.cast_natCast]
  constructor <;> linarith

/-! The round bits tell on which side of the middle the exact value lies, and whether it is the kept part itself. -/

theorem rest_lt_half_iff : y / 128 - (v / 128 : ℕ) < 1 / 2 ↔ v % 128 < 64 := by
  rw [show v % 128 < 64 ↔ v < 64 * (2 * (v / 128) + 1) by omega, lt_multiple_iff h]
  push_cast
  constructor <;> intro hlt <;> linarith

theorem half_lt_rest_iff : 1 / 2 < y / 128 - (v / 128 : ℕ) ↔ 64 < v % 128 := by
  rw [show 64 < v % 128 ↔ ¬ v ≤ 64 * (2 * (v / 128) + 1) by omega, le_multiple_iff h, not_le]
  push_cast
  constructor <;> intro hlt <;> linarith

theorem rest_eq_zero_iff : y / 128 - (v / 128 : ℕ) = 0 ↔ v % 128 = 0 := by
  have hfloor := Int.floor_le (y / 128)
  rw [floor_of_tracks h, Int.cast_natCast] at hfloor
  rw [show v % 128 = 0 ↔ v ≤ 64 * (2 * (v / 128)) by omega, le_multiple_iff h]
  push_cast
  constructor <;> intro hle <;> linarith

/-- The yardstick's rounding to an integer is what the mode makes of the kept part and the round bits. -/
theorem roundToInt_of_tracks (m : RoundingMode) (sign : Bool) :
    roundToInt m sign (y / 128) = modeRound m sign (v / 128) (v % 128) := by
  have hlt := rest_lt_half_iff h
  have hgt := half_lt_rest_iff h
  have hzero := rest_eq_zero_iff h
  have hparity : ((v / 128 : ℕ) : ℤ) % 2 = 0 ↔ v / 128 % 2 = 0 := by omega
  simp only [roundToInt, floor_of_tracks h, Int.cast_natCast]
  cases m
  case rtz => rfl
  case rne => simp only [modeRound, hlt, hgt, hparity]; split_ifs <;> rfl
  case rmm => simp only [modeRound, hlt]; split_ifs <;> rfl
  case rdn => simp only [modeRound, ne_eq, hzero]; split_ifs <;> rfl
  case rup => simp only [modeRound, ne_eq, hzero, Bool.not_eq_true]; split_ifs <;> rfl
  case rod => simp only [modeRound, hzero, hparity, or_one_eq]; split_ifs <;> omega

/-- Rounding to a grid seven places up from the significand's own. -/
theorem roundToGrid_of_tracks (m : RoundingMode) (sign : Bool) (q : ℤ) :
    roundToGrid m sign (y * 2 ^ (q - 7)) q = modeRound m sign (v / 128) (v % 128) * 2 ^ q := by
  have hscale : y * 2 ^ (q - 7) / 2 ^ q = y / 128 := by
    rw [zpow_sub₀ two_ne_zero]
    have hq : (2 : ℚ) ^ q ≠ 0 := by positivity
    field_simp
    norm_num
  rw [roundToGrid, hscale, roundToInt_of_tracks h, Int.cast_natCast]

/-- The rounded value is the exact one just when the round bits are 0. -/
theorem modeRound_exact_iff (m : RoundingMode) (sign : Bool) :
    (modeRound m sign (v / 128) (v % 128) : ℚ) = y / 128 ↔ v % 128 = 0 := by
  constructor
  · intro heq
    have hfloor := floor_of_tracks h
    rw [← heq, Int.floor_natCast, Nat.cast_inj] at hfloor
    rw [← rest_eq_zero_iff h, ← heq, hfloor, sub_self]
  · intro hb
    rw [hb, modeRound_zero, ← sub_eq_zero, ← neg_eq_zero, neg_sub, rest_eq_zero_iff h, hb]

end RoundToInt

end Sys2Proof.Machine
end

section
/-! Stage R is the IEEE-754 rounding of what its triple stands for (R33, R92). -/

namespace Sys2Proof.Machine

open Sys2Proof

/-! ### Powers of two -/

/-- A rounded significand with 24 bits, or with the carry to the next binade, against a power of two. -/
theorem two_pow_le_mul_iff {r : ℕ} (hlo : 2 ^ 23 ≤ r) (hhi : r ≤ 2 ^ 24) (n p : ℤ) :
    (2 : ℚ) ^ (n + 24) ≤ r * 2 ^ p ↔ n < p ∨ (n = p ∧ r = 2 ^ 24) := by
  have hp : (0 : ℚ) < 2 ^ p := by positivity
  have hloQ : (2 ^ 23 : ℚ) ≤ r := by exact_mod_cast hlo
  have hhiQ : (r : ℚ) ≤ 2 ^ 24 := by exact_mod_cast hhi
  rcases lt_trichotomy n p with hlt | rfl | hgt
  · refine iff_of_true ?_ (.inl hlt)
    calc (2 : ℚ) ^ (n + 24) ≤ 2 ^ (23 + p) := zpow_le_zpow_right₀ one_le_two (by omega)
      _ = 2 ^ 23 * 2 ^ p := by rw [zpow_add₀ two_ne_zero]; rfl
      _ ≤ r * 2 ^ p := mul_le_mul_of_nonneg_right hloQ hp.le
  · have hexact : (2 : ℚ) ^ (n + 24) ≤ r * 2 ^ n ↔ (2 ^ 24 : ℕ) ≤ r := by
      rw [zpow_add₀ two_ne_zero, mul_comm, mul_le_mul_iff_left₀ hp]
      norm_cast
    rw [hexact]
    omega
  · refine iff_of_false (not_le.mpr ?_) (by omega)
    calc (r : ℚ) * 2 ^ p ≤ 2 ^ 24 * 2 ^ p := mul_le_mul_of_nonneg_right hhiQ hp.le
      _ = 2 ^ (24 + p) := by rw [zpow_add₀ two_ne_zero]; rfl
      _ < 2 ^ (n + 24) := zpow_lt_zpow_right₀ one_lt_two (by omega)

section Normalised
variable {y : ℚ} (hlo : 2 ^ 30 ≤ y) (hhi : y < 2 ^ 31) (exp : ℤ)
include hlo hhi

/-- The leading bit of a normalised significand has the weight `2 ^ (exp - 126)`. -/
theorem log_normalised : Int.log 2 (y * 2 ^ (exp - 156)) = exp - 126 := by
  have hp : (0 : ℚ) < 2 ^ (exp - 156) := by positivity
  have hpos : 0 < y * 2 ^ (exp - 156) := by nlinarith
  have hle : exp - 126 ≤ Int.log 2 (y * 2 ^ (exp - 156)) := by
    rw [← Int.zpow_le_iff_le_log one_lt_two hpos, Nat.cast_two]
    calc (2 : ℚ) ^ (exp - 126) = 2 ^ (30 + (exp - 156)) := by ring_nf
      _ = 2 ^ 30 * 2 ^ (exp - 156) := by rw [zpow_add₀ two_ne_zero]; rfl
      _ ≤ y * 2 ^ (exp - 156) := mul_le_mul_of_nonneg_right hlo hp.le
  have hlt : Int.log 2 (y * 2 ^ (exp - 156)) < exp - 125 := by
    rw [← Int.lt_zpow_iff_log_lt one_lt_two hpos, Nat.cast_two]
    calc y * 2 ^ (exp - 156) < 2 ^ 31 * 2 ^ (exp - 156) := mul_lt_mul_of_pos_right hhi hp
      _ = 2 ^ (31 + (exp - 156)) := by rw [zpow_add₀ two_ne_zero]; rfl
      _ = 2 ^ (exp - 125) := by ring_nf
  omega

theorem unboundedQuantum_normalised : unboundedQuantum (y * 2 ^ (exp - 156)) = exp - 149 := by
  rw [unboundedQuantum, log_normalised hlo hhi]
  ring

theorem lt_minNormal_iff : y * 2 ^ (exp - 156) < (2 : ℚ) ^ (-126 : ℤ) ↔ exp < 0 := by
  have hpos : 0 < y * (2 : ℚ) ^ (exp - 156) := by
    have hp : (0 : ℚ) < 2 ^ (exp - 156) := by positivity
    nlinarith
  have hlog := Int.lt_zpow_iff_log_lt one_lt_two (x := -126) hpos
  rw [Nat.cast_two, log_normalised hlo hhi] at hlog
  rw [hlog]
  omega

end Normalised

/-! ### The magnitude of a packed significand (R33) -/

/-- `w` is finite, of sign `sign`, and `n` units of `2 ^ p`. -/
structure HasValue (w : Word) (sign : Bool) (n : ℕ) (p : ℤ) : Prop where
  sign_eq : signOf w = sign
  finite : isFinite w = true
  magnitude_eq : magnitude w = n * 2 ^ p

theorem hasValue_of_decompose {w : Word} {sign : Bool} {e f : ℕ} (h : decompose w = { sign := sign, exp := e, frac := f })
    (he : e ≤ 254) : HasValue w sign (if e = 0 then f else 2 ^ 23 + f) (if e = 0 then -149 else (e : ℤ) - 150) := by
  have hsign : signOf w = sign := congrArg Fields.sign h
  have hexp : expOf w = e := congrArg Fields.exp h
  have hfrac : fracOf w = f := congrArg Fields.frac h
  refine ⟨hsign, (isFinite_iff w).mpr (hexp ▸ he), ?_⟩
  rw [magnitude, hexp, hfrac]
  split <;> rfl

/-- Packing a rounded significand: its leading bit and its carry are one unit of the exponent field each, and without a leading bit
it is a subnormal's. -/
theorem hasValue_wordOf (sign : Bool) {e r : ℕ} (hnormal : e = 0 ∨ 2 ^ 23 ≤ r) (hcarry : r ≤ 2 ^ 24)
    (he : e ≤ 252 ∨ (e = 253 ∧ r < 2 ^ 24)) :
    HasValue (wordOf sign e r) sign r ((e : ℤ) - 149) := by
  obtain ⟨-, hfits, hone, htwo⟩ := packAddsTheFieldsAndCarriesIntoTheExponent sign e r
  obtain hsub | hmid | htop : r < 2 ^ 23 ∨ (2 ^ 23 ≤ r ∧ r < 2 ^ 24) ∨ r = 2 ^ 24 := by omega
  case inl =>
    obtain rfl : e = 0 := by omega
    exact hasValue_of_decompose (hfits hsub (by omega)) (by omega)
  case inr.inl =>
    obtain ⟨hlo, hhi⟩ := hmid
    have hvalue := hasValue_of_decompose (hone hlo hhi (by omega)) (by omega)
    have hexp : ((e + 1 : ℕ) : ℤ) - 150 = (e : ℤ) - 149 := by omega
    rwa [if_neg (Nat.succ_ne_zero e), if_neg (Nat.succ_ne_zero e), Nat.add_sub_cancel' hlo, hexp] at hvalue
  case inr.inr =>
    obtain ⟨hsign, hfinite, hmagnitude⟩ := hasValue_of_decompose (htwo htop (by omega)) (by omega)
    refine ⟨hsign, hfinite, hmagnitude.trans ?_⟩
    have hexp : ((e + 2 : ℕ) : ℤ) - 150 = 1 + ((e : ℤ) - 149) := by push_cast; ring
    rw [if_neg (Nat.succ_ne_zero _), if_neg (Nat.succ_ne_zero _), hexp, zpow_add₀ two_ne_zero, htop]
    norm_num
    ring

/-! ### Rounding at unbounded and at bounded exponent range -/

section Rounding
variable (m : RoundingMode) (sign : Bool) {v : ℕ} {y : ℚ} (h : Tracks 64 v y)
include h

theorem boundedRounding_of_tracks {e : ℤ} (hq : max (unboundedQuantum (y * 2 ^ (e - 156))) (-149) = e - 149) :
    boundedRounding m sign (y * 2 ^ (e - 156)) = modeRound m sign (v / 128) (v % 128) * 2 ^ (e - 149) := by
  rw [boundedRounding, hq, ← roundToGrid_of_tracks h, show e - 149 - 7 = e - 156 by ring]

theorem rounded_eq_iff (e : ℤ) :
    modeRound m sign (v / 128) (v % 128) * 2 ^ (e - 149) = y * (2 : ℚ) ^ (e - 156) ↔ v % 128 = 0 := by
  have hp : (2 : ℚ) ^ (e - 149) ≠ 0 := by positivity
  have hscale : y * (2 : ℚ) ^ (e - 156) = y / 128 * 2 ^ (e - 149) := by
    rw [show e - 149 = 7 + (e - 156) by ring, zpow_add₀ two_ne_zero]
    norm_num
    ring
  rw [hscale, mul_left_inj' hp, modeRound_exact_iff h]

end Rounding

section Domain
variable {v : ℕ} {y : ℚ} (h : Tracks 64 v y) (hlo : 2 ^ 30 ≤ v) (hhi : v < 2 ^ 31)
include h hlo hhi

theorem tracks_normalised : 2 ^ 30 ≤ y ∧ y < 2 ^ 31 := by
  have h30 := (lt_multiple_iff h (2 ^ 24)).not.mp (by omega)
  have h31 := (lt_multiple_iff h (2 ^ 25)).mp (by omega)
  push_cast at h30 h31
  constructor <;> linarith

variable (m : RoundingMode) (sign : Bool) (exp : ℤ)

theorem unboundedRounding_of_tracks :
    unboundedRounding m sign (y * 2 ^ (exp - 156)) = modeRound m sign (v / 128) (v % 128) * 2 ^ (exp - 149) := by
  obtain ⟨hylo, hyhi⟩ := tracks_normalised h hlo hhi
  rw [unboundedRounding, unboundedQuantum_normalised hylo hyhi, ← roundToGrid_of_tracks h, show exp - 149 - 7 = exp - 156 by ring]

omit h in
theorem modeRound_range : 2 ^ 23 ≤ modeRound m sign (v / 128) (v % 128) ∧ modeRound m sign (v / 128) (v % 128) ≤ 2 ^ 24 := by
  have hcases := modeRound_cases m sign (v / 128) (v % 128)
  omega

theorem overflow_iff_of_tracks : (2 : ℚ) ^ (128 : ℤ) ≤ unboundedRounding m sign (y * 2 ^ (exp - 156)) ↔
    253 < exp ∨ (exp = 253 ∧ modeRound m sign (v / 128) (v % 128) = 2 ^ 24) := by
  obtain ⟨hrlo, hrhi⟩ := modeRound_range hlo hhi m sign
  rw [unboundedRounding_of_tracks h hlo hhi, show (128 : ℤ) = 104 + 24 by norm_num, two_pow_le_mul_iff hrlo hrhi]
  omega

theorem tinyMagnitude_iff_of_tracks (t : Tininess) : tinyMagnitude m t sign (y * 2 ^ (exp - 156)) ↔
    exp < 0 ∧ (t = .before ∨ exp < -1 ∨ modeRound m sign (v / 128) (v % 128) < 2 ^ 24) := by
  obtain ⟨hylo, hyhi⟩ := tracks_normalised h hlo hhi
  obtain ⟨hrlo, hrhi⟩ := modeRound_range hlo hhi m sign
  cases t with
  | before =>
    rw [tinyMagnitude, lt_minNormal_iff hylo hyhi]
    exact (and_iff_left (.inl rfl)).symm
  | after =>
    rw [tinyMagnitude, unboundedRounding_of_tracks h hlo hhi, ← not_le, show (-126 : ℤ) = -150 + 24 by norm_num,
      two_pow_le_mul_iff hrlo hrhi]
    simp only [reduceCtorEq, false_or]
    omega

end Domain

/-! ### Stage R against the yardstick (R92) -/

/-- The yardstick for an answer that is finite: the value rounded to the grid of binary32, inexact unless that is the value itself, and
underflow with it if tiny. -/
theorem ieeeRounding_of_hasValue {m : RoundingMode} {t : Tininess} {sign : Bool} {x : ℚ} {w : Word} {f : FlagSet} {n : ℕ} {p : ℤ}
    (hover : ¬ (2 : ℚ) ^ (128 : ℤ) ≤ unboundedRounding m sign x) (hw : HasValue w sign n p)
    (hbounded : boundedRounding m sign x = n * 2 ^ p) {exact tiny : Prop} [Decidable exact] [Decidable tiny]
    (hexact : n * 2 ^ p = x ↔ exact) (htiny : tinyMagnitude m t sign x ↔ tiny)
    (hf : f = if exact then 0 else if tiny then flagUF ||| flagNX else flagNX) :
    IeeeRounding m t sign x { word := w, raise := f } := by
  obtain ⟨hsign, hfinite, hmagnitude⟩ := hw
  rw [IeeeRounding, if_neg hover, hbounded, hexact, htiny, ne_eq, hexact, hf]
  refine ⟨hsign, hfinite, hmagnitude, fun h => if_pos h, fun h ht => ?_, fun h ht => ?_⟩
  · rw [if_neg h, if_pos ht]
  · rw [if_neg h, if_neg ht]

section StageR
variable (m : RoundingMode) (t : Tininess) (sign : Bool) {exp : ℤ} {sig : Word} {y : ℚ}
  (h : Tracks 64 sig.toNat y) (hlo : 2 ^ 30 ≤ sig.toNat) (hhi : sig.toNat < 2 ^ 31)
include h hlo hhi

/-- A negative exponent: the sticky shift moves the triple to exponent 0, and the shifted significand stands for the same value. -/
theorem ieeeRounding_roundPack_of_neg (hexp : exp < 0) :
    IeeeRounding m t sign (y * 2 ^ (exp - 156)) (roundPack m t sign exp sig) := by
  obtain ⟨hylo, hyhi⟩ := tracks_normalised h hlo hhi
  have hover := overflow_iff_of_tracks h hlo hhi m sign exp
  have htiny := tinyMagnitude_iff_of_tracks h hlo hhi m sign exp t
  have hquantum := unboundedQuantum_normalised hylo hyhi exp
  have hshift := h.shift (by decide) (-exp).toNat
  have hlt : stickyShiftRight sig.toNat (-exp).toNat < 2 ^ 30 := stickyShiftRight_lt (by omega) hhi
  have hvalue : y * (2 : ℚ) ^ (exp - 156) = y / 2 ^ (-exp).toNat * 2 ^ ((0 : ℤ) - 156) := by
    have hpow : (2 : ℚ) ^ (-exp).toNat = 2 ^ (-exp) := by
      rw [← zpow_natCast, Int.toNat_of_nonneg (by omega)]
    rw [hpow, zpow_neg, div_inv_eq_mul, mul_assoc, ← zpow_add₀ two_ne_zero]
    ring_nf
  have hcarry : modeRound m sign (stickyShiftRight sig.toNat (-exp).toNat / 128) (stickyShiftRight sig.toNat (-exp).toNat % 128)
      ≤ 2 ^ 24 := by
    have hcases := modeRound_cases m sign (stickyShiftRight sig.toNat (-exp).toNat / 128)
      (stickyShiftRight sig.toNat (-exp).toNat % 128)
    omega
  have hw := hasValue_wordOf sign (.inl rfl) hcarry (.inl (Nat.zero_le _))
  rw [roundPack_eq_closedAnswer m t sign exp hlo hhi, closedAnswer, if_pos hexp]
  rw [hvalue] at hover htiny hquantum ⊢
  have hq : max (unboundedQuantum (y / 2 ^ (-exp).toNat * 2 ^ ((0 : ℤ) - 156))) (-149) = 0 - 149 := by omega
  exact ieeeRounding_of_hasValue (hover.not.mpr (by omega)) hw (boundedRounding_of_tracks m sign hshift hq)
    (rounded_eq_iff m sign hshift 0) (htiny.trans (and_iff_right hexp)) rfl

/-- An exponent of 0 or more: the significand is rounded where it stands. -/
theorem ieeeRounding_roundPack_of_nonneg (hexp : 0 ≤ exp) :
    IeeeRounding m t sign (y * 2 ^ (exp - 156)) (roundPack m t sign exp sig) := by
  obtain ⟨hylo, hyhi⟩ := tracks_normalised h hlo hhi
  obtain ⟨hrlo, hrhi⟩ := modeRound_range hlo hhi m sign
  have hover := overflow_iff_of_tracks h hlo hhi m sign exp
  have hnotTiny : tinyMagnitude m t sign (y * 2 ^ (exp - 156)) ↔ False := by
    rw [tinyMagnitude_iff_of_tracks h hlo hhi]
    exact iff_of_false (fun ⟨hneg, _⟩ => absurd hneg (Int.not_lt.mpr hexp)) not_false
  rw [roundPack_eq_closedAnswer m t sign exp hlo hhi, closedAnswer, if_neg (Int.not_lt.mpr hexp)]
  by_cases hpast : 253 < exp ∨ (exp = 253 ∧ modeRound m sign (sig.toNat / 128) (sig.toNat % 128) = 2 ^ 24)
  case pos =>
    rw [if_pos hpast, IeeeRounding, if_pos (hover.mpr hpast)]
    exact ⟨rfl, rfl⟩
  case neg =>
    have hq : max (unboundedQuantum (y * 2 ^ (exp - 156))) (-149) = exp - 149 := by
      rw [unboundedQuantum_normalised hylo hyhi]
      omega
    have hw := hasValue_wordOf sign (e := exp.toNat) (.inr hrlo) hrhi (by omega)
    rw [Int.toNat_of_nonneg hexp] at hw
    rw [if_neg hpast]
    exact ieeeRounding_of_hasValue (hover.not.mpr hpast) hw (boundedRounding_of_tracks m sign h hq) (rounded_eq_iff m sign h exp)
      hnotTiny (by rw [if_neg not_false])

/-- Stage R rounds what its significand stands for, not only the significand itself. -/
theorem ieeeRounding_roundPack : IeeeRounding m t sign (y * 2 ^ (exp - 156)) (roundPack m t sign exp sig) := by
  obtain hneg | hnonneg := lt_or_ge exp 0
  · exact ieeeRounding_roundPack_of_neg m t sign h hlo hhi hneg
  · exact ieeeRounding_roundPack_of_nonneg m t sign h hlo hhi hnonneg

end StageR

/-- Settles O38: a significand stands for itself (`tracks_self`). -/
theorem roundPackIsIeeeRoundingOfTheTriple : Obligations.RoundPackIsIeeeRoundingOfTheTriple :=
  fun m t sign _ sig hlo hhi => ieeeRounding_roundPack m t sign (tracks_self 64 sig.toNat) hlo hhi

end Sys2Proof.Machine
end

section
/-! `ADDMAGS.F32` is IEEE-754 addition of finite operands of one sign (R103), and keeps their sign (R98). -/

namespace Sys2Proof.Machine

open Sys2Proof

/-! ### A word is the rounding of its own value -/

theorem exists_hasValue {w : Word} (hw : isFinite w = true) :
    ∃ n p, n < 2 ^ 24 ∧ -149 ≤ p ∧ p ≤ 104 ∧ HasValue w (signOf w) n p := by
  rw [isFinite_iff] at hw
  have hfrac := fracOf_lt w
  have hvalue := hasValue_of_decompose (decompose_eq w) hw
  by_cases hexp : expOf w = 0
  case pos =>
    rw [if_pos hexp, if_pos hexp] at hvalue
    exact ⟨_, _, by omega, le_rfl, by omega, hvalue⟩
  case neg =>
    rw [if_neg hexp, if_neg hexp] at hvalue
    exact ⟨_, _, by omega, by omega, by omega, hvalue⟩

theorem roundToInt_natCast (m : RoundingMode) (sign : Bool) (n : ℕ) : roundToInt m sign n = n := by
  cases m <;> simp [roundToInt]

/-- A multiple of the grid's spacing, and 0 on any grid, is not rounded. -/
theorem roundToGrid_of_multiple (m : RoundingMode) (sign : Bool) {n : ℕ} {p q : ℤ} (h : n = 0 ∨ q ≤ p) :
    roundToGrid m sign (n * 2 ^ p) q = n * 2 ^ p := by
  obtain rfl | hqp := h
  · simpa [roundToGrid] using Or.inl (roundToInt_natCast m sign 0)
  · have hq : (2 : ℚ) ^ q ≠ 0 := by positivity
    have hmultiple : (n : ℚ) * 2 ^ p / 2 ^ q = (n * 2 ^ (p - q).toNat : ℕ) := by
      rw [mul_div_assoc, ← zpow_sub₀ two_ne_zero, Nat.cast_mul, Nat.cast_pow, Nat.cast_two, ← zpow_natCast,
        Int.toNat_of_nonneg (by omega)]
    rw [roundToGrid, hmultiple, roundToInt_natCast, Int.cast_natCast, ← hmultiple, div_mul_cancel₀ _ hq]

theorem unboundedQuantum_le {n : ℕ} (hpos : n ≠ 0) (hlt : n < 2 ^ 24) (p : ℤ) : unboundedQuantum (n * 2 ^ p) ≤ p := by
  have hp : (0 : ℚ) < 2 ^ p := by positivity
  have hnQ : (0 : ℚ) < n := Nat.cast_pos.mpr (Nat.pos_of_ne_zero hpos)
  have hltQ : (n : ℚ) < 2 ^ 24 := by exact_mod_cast hlt
  have hlog : Int.log 2 ((n : ℚ) * 2 ^ p) < 24 + p := by
    rw [← Int.lt_zpow_iff_log_lt one_lt_two (mul_pos hnQ hp), Nat.cast_two, zpow_add₀ two_ne_zero]
    exact mul_lt_mul_of_pos_right hltQ hp
  rw [unboundedQuantum]
  omega

/-- A finite word with no flag is the rounding of its magnitude, in every mode. -/
theorem ieeeRounding_of_exact (m : RoundingMode) (t : Tininess) {w : Word} (hw : isFinite w = true) :
    IeeeRounding m t (signOf w) (magnitude w) { word := w, raise := 0 } := by
  obtain ⟨n, p, hn, hplo, hphi, -, -, hmagnitude⟩ := exists_hasValue hw
  have hquantum : n = 0 ∨ unboundedQuantum (magnitude w) ≤ p := by
    rw [hmagnitude]
    exact or_iff_not_imp_left.mpr fun hpos => unboundedQuantum_le hpos hn p
  have hunbounded : unboundedRounding m (signOf w) (magnitude w) = magnitude w := by
    rw [unboundedRounding, hmagnitude]
    exact roundToGrid_of_multiple m _ (hmagnitude ▸ hquantum)
  have hbounded : boundedRounding m (signOf w) (magnitude w) = magnitude w := by
    rw [boundedRounding, hmagnitude]
    exact roundToGrid_of_multiple m _ (hmagnitude ▸ hquantum.imp_right fun hle => max_le hle hplo)
  have hover : ¬ (2 : ℚ) ^ (128 : ℤ) ≤ unboundedRounding m (signOf w) (magnitude w) := by
    rw [hunbounded, hmagnitude, not_le]
    have hnQ : (n : ℚ) < 2 ^ 24 := by exact_mod_cast hn
    calc (n : ℚ) * 2 ^ p < 2 ^ 24 * 2 ^ p := mul_lt_mul_of_pos_right hnQ (by positivity)
      _ ≤ 2 ^ 24 * 2 ^ (104 : ℤ) := mul_le_mul_of_nonneg_left (zpow_le_zpow_right₀ one_le_two hphi) (by positivity)
      _ = 2 ^ (128 : ℤ) := by norm_num
  rw [IeeeRounding, if_neg hover]
  exact ⟨rfl, hw, hbounded.symm, fun _ => rfl, fun hne => absurd hbounded hne, fun hne => absurd hbounded hne⟩

/-! ### What an exit of stage C stands for -/

/-- An exit of stage C stands for the value of sign `sign` and magnitude `x`: an early word has that value, and a triple's significand
stands for it. -/
def ExitStandsFor (sign : Bool) (x : ℚ) : CO → Prop
  | .early w => signOf w = sign ∧ isFinite w = true ∧ magnitude w = x
  | .nan => False
  | .round sign' exp sig => sign' = sign ∧ TripleOk exp sig ∧ ∃ y, Tracks 64 sig.toNat y ∧ x = y * 2 ^ (exp - 156)

theorem exitStandsFor_early {w : Word} {sign : Bool} {n : ℕ} {p : ℤ} {x : ℚ} (h : HasValue w sign n p) (hx : x = n * 2 ^ p) :
    ExitStandsFor sign x (.early w) :=
  ⟨h.sign_eq, h.finite, h.magnitude_eq.trans hx.symm⟩

/-- A triple whose significand is the number `n`. -/
theorem exitStandsFor_round (sign : Bool) {exp : ℤ} {n : ℕ} {x y : ℚ} (h0 : 0 ≤ exp) (h1 : exp ≤ 254) (hlo : 2 ^ 30 ≤ n)
    (hhi : n < 2 ^ 31) (hy : Tracks 64 n y) (hx : x = y * 2 ^ (exp - 156)) :
    ExitStandsFor sign x (.round sign exp (BitVec.ofNat 32 n)) := by
  have hn : (BitVec.ofNat 32 n).toNat = n := (BitVec.toNat_ofNat _ _).trans (Nat.mod_eq_of_lt (by omega))
  exact ⟨rfl, .ofNat h0 h1 hlo hhi, y, hn.symm ▸ hy, hx⟩

/-- The magnitude of a finite word at the scale of a triple of its exponent field, which is what `nearPlaced` puts it at. -/
theorem magnitude_eq_nearPlaced (w : Word) : magnitude w = nearPlaced (expOf w) (fracOf w) * 2 ^ ((expOf w : ℤ) - 156) := by
  rw [magnitude, nearPlaced_eq]
  split
  case isTrue h =>
    rw [h, show ((0 : ℕ) : ℤ) - 156 = -149 - 7 by norm_num, zpow_sub₀ two_ne_zero]
    push_cast
    ring
  case isFalse h =>
    rw [show (expOf w : ℤ) - 150 = (expOf w - 156) + 6 by ring, zpow_add₀ two_ne_zero]
    push_cast
    ring

theorem nearPlaced_of_ne_zero {e : ℕ} (he : e ≠ 0) (f : ℕ) : nearPlaced e f = (2 ^ 23 + f) * 64 := by
  rw [nearPlaced_eq, if_neg he]

/-- The sticky shift of the near operand keeps what rounding asks of the sum (R62). -/
theorem tracks_alignedSum (eF fF eN fN : ℕ) :
    Tracks 2 (alignedSum eF fF eN fN) (((2 ^ 23 + fF) * 64 : ℕ) + nearPlaced eN fN / 2 ^ (eF - eN)) := by
  have hnear := (tracks_self 2 (nearPlaced eN fN)).shift (dvd_refl 2) (eF - eN)
  have hsum := hnear.add_multiple ((2 ^ 23 + fF) * 32)
  have hplace : 2 * ((2 ^ 23 + fF) * 32) = (2 ^ 23 + fF) * 64 := by ring
  rwa [hplace] at hsum

theorem exitStandsFor_alignSum (sign : Bool) {eF fF eN fN : ℕ} (he : eN < eF) (hle : eF ≤ 254) (hF : fF < 2 ^ 23)
    (hN : fN < 2 ^ 23) : ExitStandsFor sign (nearPlaced eF fF * 2 ^ ((eF : ℤ) - 156) + nearPlaced eN fN * 2 ^ ((eN : ℤ) - 156))
      (alignSum sign eF fF eN fN) := by
  obtain ⟨hlo, hhi⟩ := alignedSum_range he hF hN
  have htracks := tracks_alignedSum eF fF eN fN
  have hx : (nearPlaced eF fF * 2 ^ ((eF : ℤ) - 156) + nearPlaced eN fN * 2 ^ ((eN : ℤ) - 156) : ℚ) =
      (((2 ^ 23 + fF) * 64 : ℕ) + nearPlaced eN fN / 2 ^ (eF - eN)) * 2 ^ ((eF : ℤ) - 156) := by
    have hscale : (2 : ℚ) ^ ((eF : ℤ) - 156) = 2 ^ (eF - eN) * 2 ^ ((eN : ℤ) - 156) := by
      rw [← zpow_natCast, ← zpow_add₀ two_ne_zero, Nat.cast_sub he.le]
      ring_nf
    have hd : (2 : ℚ) ^ (eF - eN) ≠ 0 := by positivity
    rw [nearPlaced_of_ne_zero (by omega : eF ≠ 0), hscale]
    field_simp
  obtain hlt | hge := Nat.lt_or_ge (alignedSum eF fF eN fN) (2 ^ 30)
  · rw [alignSum_of_lt sign hlt]
    refine exitStandsFor_round sign (by omega) (by omega) (by omega) (by omega) (htracks.double.of_mul 16) (hx.trans ?_)
    rw [show (eF : ℤ) - 156 = 1 + (eF - 1 - 156) by ring, zpow_add₀ two_ne_zero, zpow_one]
    ring
  · rw [alignSum_of_le sign hge]
    exact exitStandsFor_round sign (by omega) (by omega) hge hhi (htracks.of_mul 32) hx

theorem pathSubsum_eq_early_wordOf {a : Word} (ha : expOf a = 0) (b : Word) :
    pathSubsum a b = .early (wordOf (signOf a) 0 (fracOf a + fracOf b)) := by
  rw [pathSubsum, ← pack_fields a, ha, pack, Nat.add_assoc]
  rfl

theorem pathEqExact_eq_early_wordOf (a b : Word) :
    pathEqExact a b = .early (wordOf (signOf a) (expOf a) ((2 ^ 24 + fracOf a + fracOf b) / 2)) := by
  rw [pathEqExact, Nat.shiftRight_eq_div_pow]
  rfl

/-- Stage C on finite operands exits, with the sign of `uiA`, with what stands for the exact sum of their magnitudes. -/
theorem exitStandsFor_pathOf {c : DispatchClass} {a b : Word} (ha : expOf a ≤ 254) (hb : expOf b ≤ 254)
    (hc : inClass c a b = true) : ExitStandsFor (signOf a) (magnitude a + magnitude b) (pathOf c a b) := by
  have hfa := fracOf_lt a
  have hfb := fracOf_lt b
  rw [magnitude_eq_nearPlaced a, magnitude_eq_nearPlaced b]
  cases c
  all_goals simp only [inClass, Bool.and_eq_true, Bool.or_eq_true, decide_eq_true_eq, beq_iff_eq, bne_iff_ne] at hc
  case subsum =>
    obtain ⟨hza, hzb⟩ := hc
    rw [pathOf, pathSubsum_eq_early_wordOf hza]
    refine exitStandsFor_early (hasValue_wordOf (signOf a) (.inl rfl) (by omega) (.inl (by omega))) ?_
    rw [nearPlaced_eq, nearPlaced_eq, if_pos hza, if_pos hzb, hza, hzb,
      show ((0 : ℕ) : ℤ) - 149 = 7 + ((0 : ℕ) - 156) by norm_num, zpow_add₀ two_ne_zero]
    push_cast
    norm_num
    ring
  case eqExact =>
    obtain ⟨⟨⟨hne, heq⟩, hle⟩, heven⟩ := hc
    rw [pathOf, pathEqExact_eq_early_wordOf]
    refine exitStandsFor_early (hasValue_wordOf (signOf a) (.inr (by omega)) (by omega) (by omega)) ?_
    have hhalf : (2 ^ 23 + fracOf a) * 64 + (2 ^ 23 + fracOf b) * 64 = (2 ^ 24 + fracOf a + fracOf b) / 2 * 2 ^ 7 := by omega
    rw [← heq, ← add_mul, nearPlaced_of_ne_zero (by omega), nearPlaced_of_ne_zero (by omega), ← Nat.cast_add, hhalf,
      show (expOf a : ℤ) - 149 = 7 + (expOf a - 156) by ring, zpow_add₀ two_ne_zero, Nat.cast_mul, mul_assoc]
    norm_num
  case eqRound =>
    obtain ⟨⟨⟨hne, heq⟩, hle⟩, -⟩ := hc
    rw [pathOf, pathEqRound_eq_round]
    refine exitStandsFor_round (signOf a) (by omega) (by omega) (by omega) (eqRoundSum_lt a b) (tracks_self 64 _) ?_
    have hsum : (2 ^ 23 + fracOf a) * 64 + (2 ^ 23 + fracOf b) * 64 = (2 ^ 24 + fracOf a + fracOf b) * 64 := by omega
    rw [← heq, ← add_mul, nearPlaced_of_ne_zero (by omega), nearPlaced_of_ne_zero (by omega), ← Nat.cast_add, hsum]
  case alignBFar =>
    obtain ⟨hlt, hle⟩ := hc
    rw [add_comm]
    exact exitStandsFor_alignSum (signOf a) hlt hle hfb hfa
  case alignAFar =>
    obtain ⟨hlt, hle⟩ := hc
    exact exitStandsFor_alignSum (signOf a) hlt hle hfa hfb
  all_goals omega

theorem exitStandsFor_combine {a b : Word} (ha : isFinite a = true) (hb : isFinite b = true) :
    ExitStandsFor (signOf a) (magnitude a + magnitude b) (combine a b) := by
  rw [isFinite_iff] at ha hb
  rw [combine_eq_pathOf]
  exact exitStandsFor_pathOf ha hb (inClass_classify a b)

/-- Settles O49: stage C exits with what stands for the exact sum; an early word is exact, and stage R rounds what its triple
stands for. -/
theorem addMagsIsIeeeAdditionOfSameSignOperands : Obligations.AddMagsIsIeeeAdditionOfSameSignOperands := by
  intro s a b m hs ha hb hm
  have hexit := exitStandsFor_combine ha hb
  cases hco : combine a b with
  | early w =>
    rw [hco] at hexit
    obtain ⟨hsign, hfinite, hmagnitude⟩ := hexit
    refine ⟨{ word := w, raise := 0 }, exec_addmagsF32_of_combine_eq_early s hs hco, ?_⟩
    rw [← hsign, ← hmagnitude]
    exact ieeeRounding_of_exact m s.ctx.tininess hfinite
  | nan =>
    rw [hco] at hexit
    exact hexit.elim
  | round sign exp sig =>
    rw [hco] at hexit
    obtain ⟨rfl, ⟨-, -, hlo, hhi⟩, y, htracks, hx⟩ := hexit
    refine ⟨roundPack m s.ctx.tininess _ exp sig, exec_addmagsF32_of_combine_eq_round s hs hco hm, ?_⟩
    rw [hx]
    exact ieeeRounding_roundPack m s.ctx.tininess _ htracks hlo hhi

/-! ### The sign of the result (R98) -/

theorem overflowWord_sign (m : RoundingMode) (sign : Bool) :
    signOf (overflowWord m sign) = sign ∧ isNaN (overflowWord m sign) = false := by
  cases m <;> cases sign <;> decide

/-- Whatever the yardstick asks for, the overflow substitute included, has the sign of the value and is no NaN. -/
theorem sign_of_ieeeRounding {m : RoundingMode} {t : Tininess} {sign : Bool} {x : ℚ} {r : RR} (h : IeeeRounding m t sign x r) :
    signOf r.word = sign ∧ isNaN r.word = false := by
  rw [IeeeRounding] at h
  split at h
  case isTrue =>
    obtain ⟨hword, -⟩ := h
    rw [hword]
    exact overflowWord_sign m sign
  case isFalse =>
    obtain ⟨hsign, hfinite, -⟩ := h
    refine ⟨hsign, ?_⟩
    rw [isFinite_iff] at hfinite
    rw [← Bool.not_eq_true, isNaN_iff]
    omega

theorem isFinite_of_not_isInf {w : Word} (hinf : ¬ isInf w = true) (hnan : isNaN w = false) : isFinite w = true := by
  have hle := expOf_le w
  rw [← Bool.not_eq_true, isNaN_iff] at hnan
  rw [isInf_iff] at hinf
  rw [isFinite_iff]
  omega

/-- Settles O43: an infinite operand is the answer (O45), and the sum of finite operands is rounded with their sign (O49). -/
theorem addMagsPreservesTheSign : Obligations.AddMagsPreservesTheSign := by
  intro s a b m hs ha hb hm
  by_cases hia : isInf a = true
  case pos =>
    obtain ⟨hexec, -⟩ := infinityAbsorbsEverySameSignOperand s a b hia hb hs
    exact ⟨a, 0, hexec, rfl, ha⟩
  case neg =>
    by_cases hib : isInf b = true
    case pos =>
      obtain ⟨-, hexec⟩ := infinityAbsorbsEverySameSignOperand s b a hib ha hs.symm
      exact ⟨b, 0, hexec, hs.symm, hb⟩
    case neg =>
      obtain ⟨r, hexec, hround⟩ := addMagsIsIeeeAdditionOfSameSignOperands s a b m hs (isFinite_of_not_isInf hia ha)
        (isFinite_of_not_isInf hib hb) hm
      exact ⟨r.word, r.raise, hexec, sign_of_ieeeRounding hround⟩

end Sys2Proof.Machine
end
